-- ==== Sys2Proof/Word.lean ====
section
/-! DEFINITION. The one word of the machine: the cell, an unsigned 8-bit value (spec/00_scope.md R8, R10). -/

namespace Sys2Proof

/-- A cell: every memory cell, register and operand is one (R8 `CELL_WIDTH`, R15). -/
abbrev Byte := BitVec 8

/-- `trunc(v)`, that is `v mod 2^CELL_WIDTH` (R10): arithmetic is done on unbounded integers and narrowed here. -/
def trunc (v : Nat) : Byte := BitVec.ofNat 8 v

end Sys2Proof
end

