-- ==== Sys2Proof/Syntax.lean ====
section
/-! DEFINITION. The abstract syntax: the nine instructions of spec/30_encoding.md R66, one constructor per row of
spec/opcode_table.json. -/

namespace Sys2Proof

/-- An instruction with its operand cells as they stand (R60, R65). A register operand is a whole cell: any byte 0..255 may
appear (R68), and its range is checked when the register is accessed, not here. -/
inductive Instr where
  /-- `HLT` (R84): halt the machine. -/
  | hlt
  /-- `LDI Ra, imm` (R90): load the immediate cell `b` into register `a`. -/
  | ldi (a b : Byte)
  /-- `PRN Ra` (R92): print register `a`. -/
  | prn (a : Byte)
  /-- `MUL Ra, Rb` (R102): multiply register `a` by register `b`. -/
  | mul (a b : Byte)
  /-- `ADD Ra, Rb` (R104): add register `b` to register `a`. -/
  | add (a b : Byte)
  /-- `PUSH Ra` (R110): push register `a`. -/
  | push (a : Byte)
  /-- `POP Ra` (R112): pop into register `a`. -/
  | pop (a : Byte)
  /-- `CALL Ra` (R121): call the subroutine whose address is in register `a`. -/
  | call (a : Byte)
  /-- `RET` (R123): return from a subroutine. -/
  | ret
  deriving DecidableEq, Repr

end Sys2Proof
end

