-- ==== Sys2Proof/Decode.lean ====
section
/-! DEFINITION. The instruction decoder (spec/30_encoding.md) and, after it, the encoder.

There is one decoder, `decodeAt`, over any way of reading cells. The machine's fetch uses it over memory
(Sys2Proof/Machine/Fetch.lean); `decode` uses it over a list of bytes. -/

namespace Sys2Proof

/-! ## The nine opcode values (R66) -/

/-- `OPC_HLT` (R66; the source's value). -/
def opcHlt : Byte := 0x01
/-- `OPC_LDI` (R66; the source's value). -/
def opcLdi : Byte := 0x82
/-- `OPC_PRN` (R66; the source's value). -/
def opcPrn : Byte := 0x47
/-- `OPC_MUL` (R66; PRESUMED by the spec's decision D2, log entry 3). -/
def opcMul : Byte := 0xA2
/-- `OPC_ADD` (R66; PRESUMED by the spec's decision D2, log entry 3). -/
def opcAdd : Byte := 0xA0
/-- `OPC_PUSH` (R66; PRESUMED by the spec's decision D2, log entry 3). -/
def opcPush : Byte := 0x45
/-- `OPC_POP` (R66; PRESUMED by the spec's decision D2, log entry 3). -/
def opcPop : Byte := 0x46
/-- `OPC_CALL` (R66; PRESUMED by the spec's decision D2, log entry 3). -/
def opcCall : Byte := 0x50
/-- `OPC_RET` (R66; PRESUMED by the spec's decision D2, log entry 3). -/
def opcRet : Byte := 0x11

/-! ## Sizes -/

/-- The instruction's size in cells, "operand count + 1" (R60). CALL's is 2 and RET's is 1 (conflict C7). -/
def Instr.size : Instr → Nat
  | .hlt => 1
  | .ldi _ _ => 3
  | .prn _ => 2
  | .mul _ _ => 3
  | .add _ _ => 3
  | .push _ => 2
  | .pop _ => 2
  | .call _ => 2
  | .ret => 1

/-- Whether the instruction sets the PC itself: CALL and RET do, the other seven do not (R62). -/
def Instr.setsPc : Instr → Bool
  | .hlt => false
  | .ldi _ _ => false
  | .prn _ => false
  | .mul _ _ => false
  | .add _ _ => false
  | .push _ => false
  | .pop _ => false
  | .call _ => true
  | .ret => true

/-! ## The lookup table (R62) -/

/-- A row of the static lookup table: an opcode value, the size, and the instruction the operand cells `a` and `b` make.
An instruction without an operand ignores the argument. The handler's effect is its arm in Sys2Proof/Machine/Dispatch.lean. -/
structure Handler where
  opcode : Byte
  size : Nat
  build : Byte → Byte → Instr

/-- The opcode map of R66, in its order. -/
def opcodeTable : List Handler :=
  [ ⟨opcHlt, 1, fun _ _ => .hlt⟩,
    ⟨opcLdi, 3, fun a b => .ldi a b⟩,
    ⟨opcPrn, 2, fun a _ => .prn a⟩,
    ⟨opcMul, 3, fun a b => .mul a b⟩,
    ⟨opcAdd, 3, fun a b => .add a b⟩,
    ⟨opcPush, 2, fun a _ => .push a⟩,
    ⟨opcPop, 2, fun a _ => .pop a⟩,
    ⟨opcCall, 2, fun a _ => .call a⟩,
    ⟨opcRet, 1, fun _ _ => .ret⟩ ]

/-- The row of a table whose opcode matches all 8 bits, if there is one (R62). -/
def findHandler (op : Byte) : List Handler → Option Handler
  | [] => none
  | h :: hs => if h.opcode = op then some h else findHandler op hs

/-- The decoder's lookup of an opcode byte: exact match against the nine values (R62). -/
def lookup (op : Byte) : Option Handler := findHandler op opcodeTable

/-! ## The decoder -/

/-- Decoding over any reader of cells (R61 to R65): read the opcode cell; look it up; read the instruction's own operand cells
in address order, and no cell beyond its size (conflict C3). A failing read ends it with the reader's error, a byte that is no
opcode with `invalid`. -/
def decodeAt {ε : Type} (read : Nat → Except ε Byte) (invalid : Byte → ε) (pc : Nat) : Except ε Instr := do
  let op ← read pc
  match lookup op with
  | none => .error (invalid op)
  | some h => do
    let a ← (if 2 ≤ h.size then read (pc + 1) else .ok 0)
    let b ← (if h.size = 3 then read (pc + 2) else .ok 0)
    pure (h.build a b)

/-- Why a list of bytes is not an instruction. -/
inductive DecodeError where
  /-- The opcode byte matches none of the nine values (R64). -/
  | invalidOpcode (op : Byte)
  /-- The list ends before the instruction's cell at this offset. -/
  | missingCell (offset : Nat)
  deriving DecidableEq, Repr

/-- The cell at an offset of a list of bytes. -/
def cellAt (bytes : List Byte) (k : Nat) : Except DecodeError Byte :=
  match bytes[k]? with
  | some b => .ok b
  | none => .error (.missingCell k)

/-- The instruction at the head of a list of bytes, and the rest of the list. Total: it answers an instruction or says by name
why there is none. -/
def decode (bytes : List Byte) : Except DecodeError (Instr × List Byte) := do
  let i ← decodeAt (cellAt bytes) .invalidOpcode 0
  pure (i, bytes.drop i.size)

/-! ## Words as spec/opcode_table.json numbers them -/

/-- The `k`-th byte of a word whose bit 0 is the least significant bit of its first byte. -/
def wordByte (w k : Nat) : Byte := trunc (w / 256 ^ k)

/-- The cells of an instruction given as a word of `nbits` bits, in address order, every bit above them 0, up to the longest
instruction, which has 3 cells (R60). -/
def wordCells (nbits w : Nat) : List Byte :=
  [wordByte (w % 2 ^ nbits) 0, wordByte (w % 2 ^ nbits) 1, wordByte (w % 2 ^ nbits) 2]

/-- The instruction the decoder reads from an instruction whose bits are `w`; none where it refuses. -/
def decodeTableWord (nbits w : Nat) : Option Instr :=
  match decode (wordCells nbits w) with
  | .ok (i, _) => some i
  | .error _ => none

/-! ## The encoder -/

/-- The cells of an instruction: the opcode cell, then `a`, then `b` (R60, R70). -/
def encode : Instr → List Byte
  | .hlt => [opcHlt]
  | .ldi a b => [opcLdi, a, b]
  | .prn a => [opcPrn, a]
  | .mul a b => [opcMul, a, b]
  | .add a b => [opcAdd, a, b]
  | .push a => [opcPush, a]
  | .pop a => [opcPop, a]
  | .call a => [opcCall, a]
  | .ret => [opcRet]

/-- The cells of a program: its instructions one after another (R70). -/
def encodeProgram : List Instr → List Byte
  | [] => []
  | i :: is => encode i ++ encodeProgram is

end Sys2Proof
end

