-- ==== Sys2Proof/Config.lean ====
section
/-! DEFINITION. What an implementation fixes: the sizes of spec/00_scope.md R8, and its two OPEN parameters no rule depends on.
The other parameters of R8 stand where a later repair may mend them: `SP_INDEX`, `SP_RESET`, `PC_RESET` and `REG_RESET` in
Sys2Proof/Machine/Params.lean, the nine opcode values in Sys2Proof/Decode.lean. -/

namespace Sys2Proof

/-- `MEM_SIZE` (R8): the number of memory cells, at addresses `0 .. MEM_SIZE-1`. -/
abbrev Config.memSize : Nat := 256

/-- `NUM_REGS` (R8): the number of registers, at indices `0 .. NUM_REGS-1`. -/
abbrev Config.numRegs : Nat := 8

/-- `CYCLES(instr)` (R8, R156, D11), OPEN: the clocks the instruction with this opcode takes. No rule depends on it and
nothing in the model reads it (log entry 9). Free: it has no body a proof could use. -/
opaque Config.cycles : Byte → Nat

/-- `OUT_SEP` (R8, D12), OPEN: the text the host puts between successive PRN values (log entry 10). Only the host's
rendering of the output stream reads it. Free: it has no body a proof could use. -/
opaque Config.outSep : String

end Sys2Proof
end

