-- ==== Sys2Proof/Machine/Params.lean ====
section
/-! DEFINITION. The parameters of spec/00_scope.md R8 that name registers and reset values. -/

namespace Sys2Proof.Machine

/-- The index of an existing register. -/
abbrev RegIndex := Fin Config.numRegs

/-- `SP_INDEX` (R8, R22): SP is R7. PRESUMED by the spec's decision D1; log entry 2. -/
abbrev spIndex : RegIndex := 7

/-- `SP_RESET` (R8, R25). -/
abbrev spReset : Byte := 0xF4

/-- `PC_RESET` (R8, R28). -/
abbrev pcReset : Nat := 0

/-- `REG_RESET` (R8, R25, D3): the spec leaves it OPEN, a draw. DESIGN CHOICE: `State.reset` holds 0 in every register but SP;
log entry 1 (unsafe). `State.resetWith` is the reset state for any draw. -/
abbrev regReset : Byte := 0

end Sys2Proof.Machine
end

