-- ==== Sys2Proof/Machine/State.lean ====
section
/-! DEFINITION. The machine's state as plain data, its faults and its state after reset (spec/10_state.md R39,
spec/60_exceptions.md R130, spec/70_reset_and_hazards.md R150). -/

namespace Sys2Proof.Machine

/-- The run state (R29). -/
inductive RunState where
  /-- Instructions execute. -/
  | running
  /-- Nothing changes any further state until reset (R83, R136). -/
  | halted
  deriving DecidableEq, Repr

/-- Why the block is halted (R30). The reserved codes 5..7 are never set and have no constructor (U17). -/
inductive HaltReason where
  /-- Code 0: the block is Running. -/
  | none
  /-- Code 1: set by HLT (R84). -/
  | hlt
  /-- Code 2: set by `InvalidOpcode` (R64). -/
  | invalidOpcode
  /-- Code 3: set by `OutOfBounds` (R11, R12, R61). -/
  | outOfBounds
  /-- Code 4: set by `UnsupportedOperation` (R100). -/
  | unsupportedOperation
  deriving DecidableEq, Repr

/-- Where an `OutOfBounds` came from (R31, R130). -/
inductive Space where
  /-- A memory address; `fault_space` 0. -/
  | mem
  /-- A register index; `fault_space` 1. -/
  | reg
  deriving DecidableEq, Repr

/-- The three faults the block raises, with what the fault record keeps (R130). The spec describes what taking one does (R133),
so a meaning that meets one answers the NEXT state in which the fault is taken, never `Host.Outcome.fault`. -/
inductive Fault where
  /-- Raised by the decoder for an opcode byte that matches none of the nine values (R64).
  Safe: the fault's effect is the spec's, and nothing is left out. -/
  | invalidOpcode (op : Byte)
  /-- Raised by `MemRead` and `MemWrite` for an address `>= MEM_SIZE` (R12, R43) and by a register operand access for an index
  `>= NUM_REGS` (R11, R24). Safe: the fault's effect is the spec's, and nothing is left out. -/
  | outOfBounds (space : Space) (value : Nat)
  /-- Raised by the ALU for an operation identifier outside its supported set (R100); unreachable from the decoder.
  Safe: the fault's effect is the spec's, and nothing is left out. -/
  | unsupportedOperation (id : Byte)
  deriving DecidableEq, Repr

/-- Why a step has no meaning. -/
inductive Refusal where
  /-- Raised by an arm of `exec` whose instruction has no meaning yet; no arm raises it. Safe: the model stops. -/
  | notModelled (mnemonic : String)
  deriving DecidableEq, Repr

/-- Memory: (address, cell) pairs, addresses strictly rising and below `MEM_SIZE`, none holding 0. An address that is not listed
reads 0, the value every cell holds before the image is loaded (R41). -/
abbrev Memory := List Host.Cell

/-- The register file (R20). -/
abbrev RegFile := Vector Byte Config.numRegs

/-- The whole state (R39), the environment's memory included. -/
structure State where
  /-- The register file, SP among them (R20, R22). -/
  regs : RegFile
  /-- The address of the next instruction's opcode cell (R26): 0 .. `MEM_SIZE`, never wrapped (R27). -/
  pc : Nat
  /-- The run state (R29). -/
  run : RunState
  /-- The halt reason (R30). -/
  haltReason : HaltReason
  /-- The PC of the instruction that faulted (R31). -/
  faultPc : Nat
  /-- `fault_space`: true for an `OutOfBounds` of a register index (R31). -/
  faultSpace : Bool
  /-- The opcode byte, address, register index or operation identifier at fault (R31). -/
  faultValue : Nat
  /-- The output stream, the oldest value first (R36). -/
  out : List Byte
  /-- The memory the block executes from and keeps its stack in (R37). -/
  mem : Memory
  deriving DecidableEq, Repr

/-- The state after reset when the registers other than SP draw the values `draw` (R25, R150); memory is 0 in every cell (R41).
What `draw` holds at SP's index is not used. -/
def State.resetWith (draw : RegFile) : State where
  regs := draw.set spIndex spReset
  pc := pcReset
  run := .running
  haltReason := .none
  faultPc := 0
  faultSpace := false
  faultValue := 0
  out := []
  mem := []

/-- The state after reset, before an image is loaded (R150). The draw of the registers other than SP is the model's: `regReset`
in each (log entry 1). -/
def State.reset : State := State.resetWith (Vector.replicate Config.numRegs regReset)

end Sys2Proof.Machine
end

