-- ==== Sys2Proof/Machine/Flags.lean ====
section
/-! DEFINITION. The only flag the block has: the run state, with the halt reason and the fault record beside it
(spec/10_state.md R29 to R33). There are no condition codes: ADD and MUL record nothing about their result (R32), so no
instruction computes a flag. -/

namespace Sys2Proof.Machine

/-- The 3-bit code of a halt reason (R30). -/
def HaltReason.code : HaltReason → BitVec 3
  | .none => 0
  | .hlt => 1
  | .invalidOpcode => 2
  | .outOfBounds => 3
  | .unsupportedOperation => 4

/-- The halt reason is that of a fault, so the fault record is valid (R31): codes 2, 3 and 4. -/
def HaltReason.isFault : HaltReason → Bool
  | .none => false
  | .hlt => false
  | .invalidOpcode => true
  | .outOfBounds => true
  | .unsupportedOperation => true

/-- The bit `fault_space` (R31). -/
def Space.bit : Space → Bool
  | .mem => false
  | .reg => true

/-- The halt reason of a fault, `code(E)` of R133 (R130). -/
def Fault.reason : Fault → HaltReason
  | .invalidOpcode _ => .invalidOpcode
  | .outOfBounds _ _ => .outOfBounds
  | .unsupportedOperation _ => .unsupportedOperation

/-- What `fault_space` becomes: 0 for every fault but an `OutOfBounds` of a register index (R31, R130). -/
def Fault.spaceBit : Fault → Bool
  | .invalidOpcode _ => false
  | .outOfBounds space _ => space.bit
  | .unsupportedOperation _ => false

/-- What `fault_value` becomes (R31, R130). -/
def Fault.value : Fault → Nat
  | .invalidOpcode op => op.toNat
  | .outOfBounds _ value => value
  | .unsupportedOperation id => id.toNat

/-- `halt(reason)` (R13): the run state becomes Halted with the given halt reason. -/
def State.halt (s : State) (reason : HaltReason) : State :=
  { s with run := .halted, haltReason := reason }

/-- The fault record is written (R133): the faulting instruction's address, the space and the value. -/
def State.recordFault (s : State) (f : Fault) : State :=
  { s with faultPc := s.pc, faultSpace := f.spaceBit, faultValue := f.value }

end Sys2Proof.Machine
end

