-- ==== Sys2Proof/Machine/Memory.lean ====
section
/-! DEFINITION. Memory in its one canonical form (spec/20_memory.md R40, R41, R46, R50). -/

namespace Sys2Proof.Machine

/-- What an address that is not listed reads as: 0 (R41). -/
def unlisted : Byte := 0

/-- The cell at an address. -/
def Memory.read : Memory → Nat → Byte
  | [], _ => unlisted
  | (k, w) :: m, a => if k = a then w else Memory.read m a

/-- Memory with the cell at an address replaced. Writing what an unlisted address reads as removes the entry. -/
def Memory.write : Memory → Nat → Byte → Memory
  | [], a, v => if v = unlisted then [] else [(a, v)]
  | (k, w) :: m, a, v =>
    if a < k then (if v = unlisted then (k, w) :: m else (a, v) :: (k, w) :: m)
    else if a = k then (if v = unlisted then m else (a, v) :: m)
    else (k, w) :: Memory.write m a v

/-- The canonical form of the entries at addresses from `low` on: addresses strictly rising, each below `MEM_SIZE`, and no
entry equal to what an unlisted address reads as. -/
def Memory.wfFrom : Nat → Memory → Bool
  | _, [] => true
  | low, (k, w) :: m => decide (low ≤ k) && decide (k < Config.memSize) && decide (w ≠ unlisted) && Memory.wfFrom (k + 1) m

/-- The canonical form holds. -/
def Memory.wf (m : Memory) : Bool := Memory.wfFrom 0 m

/-- Memory with a list of cells written at consecutive addresses from `a` on. -/
def Memory.writeCells (m : Memory) (a : Nat) : List Byte → Memory
  | [] => m
  | v :: vs => Memory.writeCells (Memory.write m a v) (a + 1) vs

end Sys2Proof.Machine
end

