-- ==== Sys2Proof/Machine/Operands.lean ====
section
/-! DEFINITION. The operand forms: a register named by an operand cell, and SP (spec/00_scope.md R11, spec/10_state.md R22 to
R24). LDI's immediate is its operand cell as it stands (spec/30_encoding.md R65) and needs no operation. -/

namespace Sys2Proof.Machine

/-- The value of an existing register. -/
def State.reg (s : State) (r : RegIndex) : Byte := s.regs[r]

/-- The state with an existing register replaced. -/
def State.setReg (s : State) (r : RegIndex) (v : Byte) : State :=
  { s with regs := s.regs.set r v }

/-- `x[i]` (R11): the value of the register an operand cell names; `OutOfBounds(reg, i)` if there is none (R24). -/
def readReg (i : Byte) (s : State) : Except Fault Byte :=
  if h : i.toNat < Config.numRegs then .ok (s.reg ⟨i.toNat, h⟩) else .error (.outOfBounds .reg i.toNat)

/-- `x[i] <- v` (R11): `trunc(v)` is written to the register an operand cell names; `OutOfBounds(reg, i)` if there is none. -/
def writeReg (i : Byte) (v : Nat) (s : State) : Except Fault State :=
  if h : i.toNat < Config.numRegs then .ok (s.setReg ⟨i.toNat, h⟩ (trunc v)) else .error (.outOfBounds .reg i.toNat)

/-- SP, shorthand for `x[SP_INDEX]` (R11, R22). -/
def State.sp (s : State) : Byte := s.reg spIndex

/-- `SP <- SP - 1`, modulo 256 (R23): 0 - 1 gives 255. -/
def State.decSp (s : State) : State := s.setReg spIndex (s.sp - 1)

/-- `SP <- SP + 1`, modulo 256 (R23): 255 + 1 gives 0. -/
def State.incSp (s : State) : State := s.setReg spIndex (s.sp + 1)

end Sys2Proof.Machine
end

