-- ==== Sys2Proof/Machine/Ops.lean ====
section
/-! DEFINITION. The primitives every instruction is written over (spec/00_scope.md R12 to R14), taking a fault
(spec/60_exceptions.md R133), and the end of a step (spec/40_cycle_and_halt.md R80, R82).

There is no return from a fault: Halted is left only by reset (R136), which is in Sys2Proof/Machine/HostInterface.lean. -/

namespace Sys2Proof.Machine

/-! ## Memory -/

/-- The state with its memory replaced. -/
def State.setMem (s : State) (m : Memory) : State := { s with mem := m }

/-- `MemRead(addr, 1)` (R12): the cell; `OutOfBounds(mem, addr)` if `addr >= MEM_SIZE` (R43). -/
def memRead (addr : Nat) (s : State) : Except Fault Byte :=
  if addr < Config.memSize then .ok (s.mem.read addr) else .error (.outOfBounds .mem addr)

/-- `MemWrite(addr, 1, v)` (R12): `trunc(v)` is stored; `OutOfBounds(mem, addr)` if `addr >= MEM_SIZE` (R43). -/
def memWrite (addr v : Nat) (s : State) : Except Fault State :=
  if addr < Config.memSize then .ok (s.setMem (s.mem.write addr (trunc v))) else .error (.outOfBounds .mem addr)

/-! ## Output and the program counter -/

/-- `emit(v)` (R13): the value is appended to the output stream (R36). -/
def State.emit (s : State) (v : Byte) : State := { s with out := s.out ++ [v] }

/-- `pc <- target` (R13). -/
def State.setPc (s : State) (target : Nat) : State := { s with pc := target }

/-- The automatic advance by a size (R82). The new PC is not wrapped. -/
def State.advance (s : State) (size : Nat) : State := s.setPc (s.pc + size)

/-! ## Taking a fault, and the end of a step -/

/-- Taking a fault (R133), on the state as it was before the step: the working copy is discarded, the block is halted with the
fault's code, and the fault record is written. The PC keeps the faulting instruction's address. -/
def takeFault (f : Fault) (s : State) : State := (s.halt f.reason).recordFault f

/-- A step that raises a fault ends in the state in which the fault is taken (R133). -/
def raiseFault (f : Fault) (s : State) : Host.Outcome State Fault Refusal := .next (takeFault f s)

/-- The end of an instruction's step (R14, R80): if its effect on the working copy raised a fault, that fault is taken on the
state `s` before the step. Otherwise the working copy becomes the new state, after the automatic advance unless the instruction
sets the PC (R82). -/
def finish (i : Instr) (effect : Except Fault State) (s : State) : Host.Outcome State Fault Refusal :=
  match effect with
  | .error f => raiseFault f s
  | .ok t => .next (if i.setsPc then t else t.advance i.size)

/-- What a halted block does: nothing; it keeps its state (R83, R136). DEDUCED, log entry 4: the model's step answers the same
state where the spec enables no step. -/
def holdHalted (s : State) : Host.Outcome State Fault Refusal := .next s

end Sys2Proof.Machine
end

