-- ==== Sys2Proof/Machine/Alu.lean ====
section
/-! DEFINITION. The ALU's one entry point, and MUL and ADD, both routed through it (spec/42_alu.md R100 to R106). -/

namespace Sys2Proof.Machine

/-- `alu_apply(op, ra, rb)` (R100): `x[ra]` is read, then `x[rb]`; the exact sum or product is written to `x[ra]`, truncated; an
operation identifier outside `OPC_ADD` and `OPC_MUL` raises `UnsupportedOperation`. The identifier is an opcode byte (D18). -/
def aluApply (op ra rb : Byte) (s : State) : Except Fault State := do
  let u ← readReg ra s
  let v ← readReg rb s
  if op = opcAdd then writeReg ra (u.toNat + v.toNat) s
  else if op = opcMul then writeReg ra (u.toNat * v.toNat) s
  else .error (.unsupportedOperation op)

/-- MUL's effect: `alu_apply(OPC_MUL, a, b)`. -/
def mulEffect (a b : Byte) (s : State) : Except Fault State := aluApply opcMul a b s

/-- MUL (R102). -/
def execMul (a b : Byte) (s : State) : Host.Outcome State Fault Refusal := finish (.mul a b) (mulEffect a b s) s

/-- ADD's effect: `alu_apply(OPC_ADD, a, b)`. -/
def addEffect (a b : Byte) (s : State) : Except Fault State := aluApply opcAdd a b s

/-- ADD (R104). -/
def execAdd (a b : Byte) (s : State) : Host.Outcome State Fault Refusal := finish (.add a b) (addEffect a b s) s

end Sys2Proof.Machine
end

