-- ==== Sys2Proof/Machine/CallReturn.lean ====
section
/-! DEFINITION. CALL and RET (spec/44_call_return.md R120, R121, R123). Both set the PC, so there is no automatic advance. -/

namespace Sys2Proof.Machine

/-- CALL's effect: `SP <- SP - 1`; `MemWrite(SP, 1, pc + 2)`; `t <- x[a]`, read after the SP update; `pc <- t`. -/
def callEffect (a : Byte) (s : State) : Except Fault State := do
  let s := s.decSp
  let s ← memWrite s.sp.toNat (s.pc + 2) s
  let t ← readReg a s
  pure (s.setPc t.toNat)

/-- CALL (R121). -/
def execCall (a : Byte) (s : State) : Host.Outcome State Fault Refusal := finish (.call a) (callEffect a s) s

/-- RET's effect: `t <- MemRead(SP, 1)`; `SP <- SP + 1`; `pc <- t`. -/
def retEffect (s : State) : Except Fault State := do
  let t ← memRead s.sp.toNat s
  let s := s.incSp
  pure (s.setPc t.toNat)

/-- RET (R123). -/
def execRet (s : State) : Host.Outcome State Fault Refusal := finish .ret (retEffect s) s

end Sys2Proof.Machine
end

