-- ==== Sys2Proof/Machine/Halt.lean ====
section
/-! DEFINITION. HLT (spec/40_cycle_and_halt.md R84). -/

namespace Sys2Proof.Machine

/-- HLT's effect: `halt(HLT)`. -/
def hltEffect (s : State) : Except Fault State := .ok (s.halt .hlt)

/-- HLT (R84): the block halts; the automatic advance leaves the PC just past HLT. -/
def execHlt (s : State) : Host.Outcome State Fault Refusal := finish .hlt (hltEffect s) s

end Sys2Proof.Machine
end

