-- ==== Sys2Proof/Machine/RegisterIo.lean ====
section
/-! DEFINITION. LDI and PRN (spec/41_register_io.md R90, R92). -/

namespace Sys2Proof.Machine

/-- LDI's effect: `x[a] <- b`. -/
def ldiEffect (a b : Byte) (s : State) : Except Fault State := writeReg a b.toNat s

/-- LDI (R90). -/
def execLdi (a b : Byte) (s : State) : Host.Outcome State Fault Refusal := finish (.ldi a b) (ldiEffect a b s) s

/-- PRN's effect: `v <- x[a]`; `emit(v)`. -/
def prnEffect (a : Byte) (s : State) : Except Fault State := do
  let v ← readReg a s
  pure (s.emit v)

/-- PRN (R92). -/
def execPrn (a : Byte) (s : State) : Host.Outcome State Fault Refusal := finish (.prn a) (prnEffect a s) s

end Sys2Proof.Machine
end

