-- ==== Sys2Proof/Machine/Stack.lean ====
section
/-! DEFINITION. PUSH and POP on a full descending stack (spec/43_stack.md R110, R112, R114). The stack has no bound of its own
and its use is not validated (R115). -/

namespace Sys2Proof.Machine

/-- PUSH's effect: `SP <- SP - 1`; `v <- x[a]`, read after the SP update; `MemWrite(SP, 1, v)`. -/
def pushEffect (a : Byte) (s : State) : Except Fault State := do
  let s := s.decSp
  let v ← readReg a s
  memWrite s.sp.toNat v.toNat s

/-- PUSH (R110). -/
def execPush (a : Byte) (s : State) : Host.Outcome State Fault Refusal := finish (.push a) (pushEffect a s) s

/-- POP's effect: `v <- MemRead(SP, 1)`; `x[a] <- v`; `SP <- SP + 1`, which reads SP after the register write. -/
def popEffect (a : Byte) (s : State) : Except Fault State := do
  let v ← memRead s.sp.toNat s
  let s ← writeReg a v.toNat s
  pure s.incSp

/-- POP (R112). -/
def execPop (a : Byte) (s : State) : Host.Outcome State Fault Refusal := finish (.pop a) (popEffect a s) s

end Sys2Proof.Machine
end

