-- ==== Sys2Proof/Machine/Fetch.lean ====
section
/-! DEFINITION. Fetching an instruction from memory (spec/30_encoding.md R61 to R64; the first four lines of R80). -/

namespace Sys2Proof.Machine

/-- The instruction at the PC: the opcode cell is read, looked up, and the instruction's own operand cells are read in address
order. The fault is the first one met, in the order of R134: the opcode fetch, the lookup, PC+1, PC+2. -/
def fetch (s : State) : Except Fault Instr :=
  decodeAt (fun addr => memRead addr s) .invalidOpcode s.pc

end Sys2Proof.Machine
end

