-- ==== Sys2Proof/Machine/Step.lean ====
section
/-! DEFINITION. One step of the machine (spec/40_cycle_and_halt.md R80, R83). -/

namespace Sys2Proof.Machine

/-- One step: a running block fetches the instruction at the PC and executes it, and takes the fault a fetch raises; a halted
block keeps its state. -/
def step (s : State) : Host.Outcome State Fault Refusal :=
  match s.run with
  | .halted => holdHalted s
  | .running =>
    match fetch s with
    | .error f => raiseFault f s
    | .ok i => exec i s

/-- The state with the cells of an instruction of `nbits` bits `w` stored at the PC, where `step` fetches its next instruction;
every bit above `nbits` is 0, up to the longest instruction. A cell that would lie at or beyond `MEM_SIZE` does not exist and is
not stored. -/
def State.withFetchWord (s : State) (nbits w : Nat) : State :=
  { s with mem := s.mem.writeCells s.pc ((wordCells nbits w).take (Config.memSize - s.pc)) }

end Sys2Proof.Machine
end

