-- ==== Sys2Proof/Machine/HostInterface.lean ====
section
/-! DEFINITION. The host's side of the block: loading an image, reset, the status outputs and the rendering of the output
(spec/10_state.md R38, spec/20_memory.md R55, spec/41_register_io.md R93, spec/60_exceptions.md R141,
spec/70_reset_and_hazards.md R150 to R152). -/

namespace Sys2Proof.Machine

/-! ## Loading -/

/-- Why an image is not loaded (R55). The block then never starts. -/
inductive LoadError where
  /-- The image is longer than `MEM_SIZE` cells. -/
  | tooLong (cells : Nat)
  /-- An element is not a cell value 0..255. -/
  | notACell (value : Nat)
  deriving DecidableEq, Repr

/-- The first element of an image that is not a cell value. -/
def firstNonCell : List Nat → Option Nat
  | [] => none
  | v :: vs => if 256 ≤ v then some v else firstNonCell vs

/-- The memory the host fills while `rst` is asserted (R55, R141): the image from address 0 over cells that all hold 0. -/
def loadImage (image : List Nat) : Except LoadError Memory :=
  if Config.memSize < image.length then .error (.tooLong image.length)
  else match firstNonCell image with
    | some v => .error (.notACell v)
    | none => .ok (Memory.writeCells [] 0 (image.map trunc))

/-! ## Reset -/

/-- The block's reset with its registers' draw (R150). It does not touch memory, which lies outside the block (R151). -/
def State.assertReset (s : State) (draw : RegFile) : State := (State.resetWith draw).setMem s.mem

/-- The state in which execution starts, once `rst` is released after a successful load (R141, R152). -/
def start (draw : RegFile) (image : List Nat) : Except LoadError State := do
  let m ← loadImage image
  pure ((State.resetWith draw).setMem m)

/-- A step of the block with its reset input (R38): asserted, it puts the block into its reset state with the draw given;
otherwise the block steps. -/
def stepWithReset (rst : Option RegFile) (s : State) : Host.Outcome State Fault Refusal :=
  match rst with
  | some draw => .next (s.assertReset draw)
  | none => step s

/-! ## Outputs -/

/-- The status outputs, at the widths of R38. -/
structure StatusOutputs where
  halted : Bool
  haltReason : BitVec 3
  faultPc : BitVec 9
  faultSpace : Bool
  faultValue : BitVec 9
  deriving DecidableEq, Repr

/-- What the status outputs carry (R38). -/
def State.statusOutputs (s : State) : StatusOutputs where
  halted := decide (s.run = .halted)
  haltReason := s.haltReason.code
  faultPc := BitVec.ofNat 9 s.faultPc
  faultSpace := s.faultSpace
  faultValue := BitVec.ofNat 9 s.faultValue

/-- The host's rendering of one value: its decimal digits with no leading zeros (R93). -/
def renderValue (v : Byte) : String := Nat.repr v.toNat

/-- The host's rendering of the output stream; the text between two values is the OPEN parameter `OUT_SEP` (D12). -/
def renderOutput (out : List Byte) : String := String.intercalate Config.outSep (out.map renderValue)

end Sys2Proof.Machine
end

