-- ==== Sys2Proof/Machine/Port.lean ====
section
/-! DEFINITION. The transactions a step issues on the memory port, in order (spec/10_state.md R38, spec/20_memory.md R42): a view
of the step for the host, beside `step`. Nothing in `step` reads it. -/

namespace Sys2Proof.Machine

/-- A transaction on the memory port: one cell, an 8-bit address, so never one `>= MEM_SIZE` (R38). -/
inductive Transaction where
  /-- `mem_rdata` at `mem_addr`. -/
  | read (addr data : Byte)
  /-- `mem_wdata` stored at `mem_addr`. -/
  | write (addr data : Byte)
  deriving DecidableEq, Repr

/-- A read is issued only after its address passes the bound check (R38). -/
def portRead (addr : Nat) (s : State) : List Transaction :=
  if addr < Config.memSize then [.read (trunc addr) (s.mem.read addr)] else []

/-- A write is issued only after its address passes the bound check (R38). -/
def portWrite (addr : Nat) (v : Byte) : List Transaction :=
  if addr < Config.memSize then [.write (trunc addr) v] else []

/-- The reads of the fetch (R61, R63): the opcode cell, then the instruction's own operand cells. -/
def fetchTransactions (s : State) : List Transaction :=
  portRead s.pc s ++
    match memRead s.pc s with
    | .error _ => []
    | .ok op =>
      match lookup op with
      | none => []
      | some h =>
        (if 2 ≤ h.size then portRead (s.pc + 1) s else []) ++ (if h.size = 3 then portRead (s.pc + 2) s else [])

/-- The data access of an instruction (R42). A store that a later line's fault throws away is not issued: the step commits as a
whole (R14). DEDUCED, log entry 8. -/
def dataTransactions (i : Instr) (s : State) : List Transaction :=
  match i with
  | .hlt => []
  | .ldi _ _ => []
  | .prn _ => []
  | .mul _ _ => []
  | .add _ _ => []
  | .push a =>
    match readReg a s.decSp with
    | .error _ => []
    | .ok v => portWrite s.decSp.sp.toNat v
  | .pop _ => portRead s.sp.toNat s
  | .call a =>
    match readReg a s.decSp with
    | .error _ => []
    | .ok _ => portWrite s.decSp.sp.toNat (trunc (s.pc + 2))
  | .ret => portRead s.sp.toNat s

/-- The transactions of the next step. A halted block issues none (R83). -/
def stepTransactions (s : State) : List Transaction :=
  match s.run with
  | .halted => []
  | .running =>
    fetchTransactions s ++
      match fetch s with
      | .error _ => []
      | .ok i => dataTransactions i s

/-- The transactions of a step of the block with its reset input, `stepWithReset`'s (R38): while `rst` is asserted the block issues
no memory access; otherwise they are the step's. -/
def transactionsWithReset (rst : Option RegFile) (s : State) : List Transaction :=
  match rst with
  | some _ => []
  | none => stepTransactions s

/-- Memory after a list of transactions: a read changes nothing (R46), a write stores its cell. -/
def Memory.after (m : Memory) : List Transaction → Memory
  | [] => m
  | .read _ _ :: ts => Memory.after m ts
  | .write addr data :: ts => Memory.after (Memory.write m addr.toNat data) ts

end Sys2Proof.Machine
end

