-- ==== Sys2Proof/Safety.lean ====
section
/-! DEFINITION. The terms claims are stated in: the invariant of the machine's states, the end of a run and what it shows
(spec/40_cycle_and_halt.md R85), and running several instructions one after another. -/

namespace Sys2Proof.Machine

/-! ## The invariant -/

/-- The fault record at its reset value (R31). -/
abbrev State.RecordClear (s : State) : Prop := s.faultPc = 0 ∧ s.faultSpace = false ∧ s.faultValue = 0

/-- The fault record agrees with the halt reason (R31, R130, R133). Unless the reason is a fault's, it is clear. After a fault it
names the instruction at the PC, and it holds a byte that is no opcode, an index no register has, or the one address past the end
of memory that a fetch can reach (R43). The reason is never `UnsupportedOperation`, which no step raises (R100). -/
abbrev State.RecordAgrees (s : State) : Prop :=
  (s.haltReason.isFault = false → s.RecordClear) ∧
  (s.haltReason = .invalidOpcode →
    s.faultPc = s.pc ∧ s.faultSpace = false ∧ s.faultValue < 256 ∧ (lookup (trunc s.faultValue)).isNone = true) ∧
  (s.haltReason = .outOfBounds →
    s.faultPc = s.pc ∧
      (s.faultSpace = true ∧ Config.numRegs ≤ s.faultValue ∧ s.faultValue < 256 ∨
        s.faultSpace = false ∧ s.faultValue = Config.memSize)) ∧
  s.haltReason ≠ .unsupportedOperation

/-- The invariant: memory is in its canonical form (R40), the PC is `0 .. MEM_SIZE` (R27), the halt reason is NONE exactly when
the block is Running (R30), and the fault record agrees with the halt reason. -/
abbrev State.Inv (s : State) : Prop :=
  s.mem.wf = true ∧ s.pc ≤ Config.memSize ∧ (s.haltReason = .none ↔ s.run = .running) ∧ s.RecordAgrees

/-! ## The end of a run -/

/-- What is seen at the end of a run (R85). -/
structure Observation where
  haltReason : HaltReason
  faultPc : Nat
  faultSpace : Bool
  faultValue : Nat
  pc : Nat
  regs : RegFile
  mem : Memory
  out : List Byte
  deriving DecidableEq, Repr

/-- The observation of a state (R85). -/
def State.observe (s : State) : Observation where
  haltReason := s.haltReason
  faultPc := s.faultPc
  faultSpace := s.faultSpace
  faultValue := s.faultValue
  pc := s.pc
  regs := s.regs
  mem := s.mem
  out := s.out

/-- A run under fuel (R85): the state in which the block is halted, or none if the fuel runs out first, which means "not ended"
and never "halted". -/
def runUntilHalted (fuel : Nat) (s : State) : Option State :=
  match s.run with
  | .halted => some s
  | .running =>
    match fuel with
    | 0 => none
    | fuel + 1 =>
      match step s with
      | .next t => runUntilHalted fuel t
      | .fault _ => none
      | .refused _ => none

/-- The end of a run is a normal one (R85): HLT ended it. -/
def State.endedByHlt (s : State) : Bool := decide (s.run = .halted ∧ s.haltReason = .hlt)

/-! ## Several instructions -/

/-- Several instructions executed one after another (R81), as if the PC reached each in turn: for claims about sequences that
hold wherever their cells lie. -/
def execAll : List Instr → State → Host.Outcome State Fault Refusal
  | [], s => .next s
  | i :: is, s =>
    match exec i s with
    | .next t => execAll is t
    | .fault f => .fault f
    | .refused r => .refused r

/-- The cells of memory from the PC on, up to the longest instruction and the end of memory: what the decoder is given (R60). -/
def State.bytesAtPc (s : State) : List Byte :=
  (List.range (min 3 (Config.memSize - s.pc))).map (fun k => s.mem.read (s.pc + k))

/-- The instruction names register `r` in an operand cell. LDI's `b` is an immediate and names none (R65). -/
def namesRegister (r : RegIndex) : Instr → Bool
  | .hlt => false
  | .ldi a _ => decide (a.toNat = r.val)
  | .prn a => decide (a.toNat = r.val)
  | .mul a b => decide (a.toNat = r.val) || decide (b.toNat = r.val)
  | .add a b => decide (a.toNat = r.val) || decide (b.toNat = r.val)
  | .push a => decide (a.toNat = r.val)
  | .pop a => decide (a.toNat = r.val)
  | .call a => decide (a.toNat = r.val)
  | .ret => false

/-- The operand cell that names an existing register (R70). -/
def operandOf (r : RegIndex) : Byte := BitVec.ofNat 8 r.val

end Sys2Proof.Machine
end

