-- ==== Sys2Proof/WellFormed.lean ====
section
/-! DEFINITION. Which instructions name only registers that exist (spec/10_state.md R24, spec/30_encoding.md R70).

Every term of `Instr` is an encodable instruction that decodes and runs: an operand cell has no reserved values (R68). So this
check is not a condition of decoding or of running. It says which instructions the assembler syntax of R70 can write
(`Ra`, `Rb` are `R0 .. R7`), that is, which never raise `OutOfBounds(reg, i)`. -/

namespace Sys2Proof

/-- The operand cell names a register of the register file (R24). -/
def registerExists (i : Byte) : Bool := decide (i.toNat < Config.numRegs)

/-- Every register operand of the instruction names an existing register. LDI's `b` is an immediate: any byte will do (R65). -/
def Instr.wellFormed : Instr → Bool
  | .hlt => true
  | .ldi a _ => registerExists a
  | .prn a => registerExists a
  | .mul a b => registerExists a && registerExists b
  | .add a b => registerExists a && registerExists b
  | .push a => registerExists a
  | .pop a => registerExists a
  | .call a => registerExists a
  | .ret => true

end Sys2Proof
end

