-- ==== Sys2Proof/Certificates/Slice0/Obligations.lean ====
section
/-! DEFINITION. The statements for the provers, from the numbered rules of spec/.

Where a statement rests on one of the spec's own decisions (D<n> of spec/92_eei_decisions.md) or on a choice of the model, its
docstring names the decision or the log entry. A register operand is written `a` with `h : a.toNat < Config.numRegs` where the
register exists; `spIndex` is SP's index, R7 (D1, log entry 2); sizes are written as the numbers R9 gives them. -/

open Sys2Proof Sys2Proof.Machine

/-! ## Encoding and decoding -/

/-- Words written out from the opcode map of R66, one per instruction, decode to the instruction they stand for. Six of the
opcode values are the spec's decision D2 (log entry 3). -/
def Obligations.OpcodeWordsDecode : Prop :=
  decode [0b00000001] = .ok (.hlt, []) ∧
  decode [0b10000010, 0x00, 0x2A] = .ok (.ldi 0x00 0x2A, []) ∧
  decode [0b01000111, 0x07] = .ok (.prn 0x07, []) ∧
  decode [0b10100010, 0x01, 0x02] = .ok (.mul 0x01 0x02, []) ∧
  decode [0b10100000, 0x01, 0x02] = .ok (.add 0x01 0x02, []) ∧
  decode [0b01000101, 0x03] = .ok (.push 0x03, []) ∧
  decode [0b01000110, 0x04] = .ok (.pop 0x04, []) ∧
  decode [0b01010000, 0xFF] = .ok (.call 0xFF, []) ∧
  decode [0b00010001] = .ok (.ret, [])

/-- R60, R65, R70: decoding the cells of any instruction gives it back with every operand, and leaves the cells after it. It
holds for every instruction, whether or not its register operands exist. -/
def Obligations.DecodeOfEncodeIsTheInstruction : Prop :=
  ∀ (i : Instr) (rest : List Byte), decode (encode i ++ rest) = .ok (i, rest)

/-- R62, R65: the cells an instruction was decoded from are its encoding, so each word has one meaning and no bit is a
don't-care. -/
def Obligations.EncodeOfDecodeIsTheCells : Prop :=
  ∀ (bytes : List Byte) (i : Instr) (rest : List Byte), decode bytes = .ok (i, rest) → bytes = encode i ++ rest

/-- R60, R69: the cells of a program determine the program. -/
def Obligations.ProgramCellsDetermineTheProgram : Prop :=
  ∀ is js : List Instr, encodeProgram is = encodeProgram js → is = js

/-- R64, R68: an opcode byte is refused exactly when it is none of the nine values, whatever follows it, and 247 bytes are
refused. The values of six opcodes are the spec's decision D2 (log entry 3). -/
def Obligations.OtherOpcodesAreInvalid : Prop :=
  (∀ (op : Byte) (rest : List Byte), decode (op :: rest) = .error (.invalidOpcode op) ↔
    op.toNat ∉ [0x01, 0x82, 0x47, 0xA2, 0xA0, 0x45, 0x46, 0x50, 0x11]) ∧
  ((List.range 256).filter (fun n => (lookup (trunc n)).isNone)).length = 247

/-- R60, R63: an instruction cut short is refused at its first missing cell. -/
def Obligations.CutInstructionMissesItsNextCell : Prop :=
  ∀ (i : Instr) (k : Nat), k < i.size → decode ((encode i).take k) = .error (.missingCell k)

/-! ## Fetching and stepping -/

/-- R80: when the cells at the PC decode to an instruction, a step of a running block is that instruction's execution. -/
def Obligations.StepRunsTheDecodedInstruction : Prop :=
  ∀ (s : State) (i : Instr) (rest : List Byte),
    s.run = .running → decode s.bytesAtPc = .ok (i, rest) → step s = exec i s

/-- R61: an opcode fetch at or past `MEM_SIZE` raises `OutOfBounds(mem, PC)`, and nothing else of the instruction happens. -/
def Obligations.OpcodeFetchPastMemoryFaults : Prop :=
  (∀ s : State, ¬ s.pc < 256 → fetch s = .error (.outOfBounds .mem s.pc)) ∧
  (∀ s : State, s.run = .running → ¬ s.pc < 256 → step s = .next (takeFault (.outOfBounds .mem s.pc) s)) ∧
  (∀ (s : State) (i : Instr), s.pc < 256 → fetch s = .ok i → (encode i).head? = some (s.mem.read s.pc))

/-- R61, R63, R64, R133: what a step of a running block does when the cells at the PC are no instruction. A missing cell is an
`OutOfBounds` of its address; a byte that is no opcode is an `InvalidOpcode`. The fault record is the spec's decisions D6
and D7. -/
def Obligations.StepTakesTheFetchFault : Prop :=
  ∀ s : State, s.run = .running →
    (∀ k, decode s.bytesAtPc = .error (.missingCell k) →
      step s = .next { s with run := .halted, haltReason := .outOfBounds, faultPc := s.pc, faultSpace := false,
                              faultValue := s.pc + k }) ∧
    (∀ op, decode s.bytesAtPc = .error (.invalidOpcode op) →
      step s = .next { s with run := .halted, haltReason := .invalidOpcode, faultPc := s.pc, faultSpace := false,
                              faultValue := op.toNat })

/-- R53 (the spec's derivation from R50): an instruction whose cells are written into memory at the PC executes as written. -/
def Obligations.InstructionWrittenAtPcRuns : Prop :=
  ∀ (s : State) (i : Instr), s.run = .running → s.mem.wf = true → s.pc + i.size ≤ 256 →
    step (s.setMem (s.mem.writeCells s.pc (encode i))) = exec i (s.setMem (s.mem.writeCells s.pc (encode i)))

/-- R63, D5: the fetch depends on the instruction's own cells and on no other cell or register. -/
def Obligations.FetchReadsOnlyTheInstructionsCells : Prop :=
  ∀ (s t : State) (i : Instr), fetch s = .ok i → t.pc = s.pc →
    (∀ k, k < i.size → t.mem.read (s.pc + k) = s.mem.read (s.pc + k)) → fetch t = .ok i

/-- R63, R84, R123, D5: a one-cell instruction in the last cell of memory runs; a longer one there faults on its operand. RET's
opcode and the longer opcodes but LDI's and PRN's are the spec's decision D2. -/
def Obligations.OnlyOneCellInstructionsRunInTheLastCell : Prop :=
  ∀ s : State, s.run = .running → s.pc = 255 →
    (s.mem.read 255 = 0x01 → step s = exec .hlt s) ∧
    (s.mem.read 255 = 0x11 → step s = exec .ret s) ∧
    (s.mem.read 255 ∈ ([0x82, 0x47, 0xA2, 0xA0, 0x45, 0x46, 0x50] : List Byte) →
      step s = .next (takeFault (.outOfBounds .mem 256) s))

/-! ## Results of the nine instructions, each a completion with its whole next state -/

/-- R84: HLT halts the block with halt reason HLT and the PC just past it; nothing else changes. -/
def Obligations.HltHaltsPastItself : Prop :=
  ∀ s : State, exec .hlt s = .next { s with run := .halted, haltReason := .hlt, pc := s.pc + 1 }

/-- R90: LDI stores its immediate, unchanged, in an existing register and advances the PC by 3; nothing else changes. -/
def Obligations.LdiLoadsTheImmediate : Prop :=
  ∀ (a b : Byte) (s : State) (h : a.toNat < Config.numRegs),
    exec (.ldi a b) s = .next { s with regs := s.regs.set a.toNat b h, pc := s.pc + 3 }

/-- R92: PRN appends an existing register's value to the output stream and advances the PC by 2; nothing else changes. -/
def Obligations.PrnEmitsTheRegister : Prop :=
  ∀ (a : Byte) (s : State) (h : a.toNat < Config.numRegs),
    exec (.prn a) s = .next { s with out := s.out ++ [s.regs[a.toNat]], pc := s.pc + 2 }

/-- R102: MUL leaves the 8-bit product in the first register and advances the PC by 3; nothing else changes. -/
def Obligations.MulMultipliesIntoTheFirst : Prop :=
  ∀ (a b : Byte) (s : State) (ha : a.toNat < Config.numRegs) (hb : b.toNat < Config.numRegs),
    exec (.mul a b) s = .next { s with regs := s.regs.set a.toNat (s.regs[a.toNat] * s.regs[b.toNat]) ha, pc := s.pc + 3 }

/-- R104: ADD leaves the 8-bit sum in the first register and advances the PC by 3; nothing else changes. -/
def Obligations.AddAddsIntoTheFirst : Prop :=
  ∀ (a b : Byte) (s : State) (ha : a.toNat < Config.numRegs) (hb : b.toNat < Config.numRegs),
    exec (.add a b) s = .next { s with regs := s.regs.set a.toNat (s.regs[a.toNat] + s.regs[b.toNat]) ha, pc := s.pc + 3 }

/-- R110: PUSH decrements SP and stores the register at the new SP; PUSH of SP stores the decremented SP. D1 names SP. -/
def Obligations.PushStoresBelowTheStack : Prop :=
  ∀ (a : Byte) (s : State) (h : a.toNat < Config.numRegs),
    exec (.push a) s = .next { s with
      regs := s.regs.set spIndex (s.regs[spIndex] - 1)
      mem := s.mem.write (s.regs[spIndex] - 1).toNat (if a.toNat = 7 then s.regs[spIndex] - 1 else s.regs[a.toNat])
      pc := s.pc + 2 }

/-- R112: POP loads the cell at SP and increments SP; POP into SP leaves the cell's value plus 1. Memory is as it was. D1 names
SP. -/
def Obligations.PopLoadsTheTopOfStack : Prop :=
  ∀ (a : Byte) (s : State) (h : a.toNat < Config.numRegs),
    exec (.pop a) s = .next { s with
      regs :=
        if a.toNat = 7 then s.regs.set spIndex (s.mem.read s.regs[spIndex].toNat + 1)
        else (s.regs.set a.toNat (s.mem.read s.regs[spIndex].toNat) h).set spIndex (s.regs[spIndex] + 1)
      pc := s.pc + 2 }

/-- R121: CALL decrements SP, stores the truncated return address at the new SP and jumps to the register; CALL of SP jumps to
the decremented SP. D1 names SP. -/
def Obligations.CallPushesTheReturnAddressAndJumps : Prop :=
  ∀ (a : Byte) (s : State) (h : a.toNat < Config.numRegs),
    exec (.call a) s = .next { s with
      regs := s.regs.set spIndex (s.regs[spIndex] - 1)
      mem := s.mem.write (s.regs[spIndex] - 1).toNat (BitVec.ofNat 8 (s.pc + 2))
      pc := (if a.toNat = 7 then s.regs[spIndex] - 1 else s.regs[a.toNat]).toNat }

/-- R123: RET jumps to the cell at SP and increments SP; nothing else changes. D1 names SP. -/
def Obligations.RetJumpsToTheTopOfStack : Prop :=
  ∀ s : State, exec .ret s = .next { s with
    regs := s.regs.set spIndex (s.regs[spIndex] + 1), pc := (s.mem.read s.regs[spIndex].toNat).toNat }

/-- R103: MUL on registers holding `u` and `v` leaves `(u * v) mod 256` in the first and the second unchanged, unless they are
the same. -/
def Obligations.MulArithmeticDeterminism : Prop :=
  ∀ (a b : Byte) (s : State) (ha : a.toNat < Config.numRegs) (hb : b.toNat < Config.numRegs),
    ∃ t, exec (.mul a b) s = .next t ∧
      t.regs[a.toNat].toNat = (s.regs[a.toNat].toNat * s.regs[b.toNat].toNat) % 256 ∧
      (a ≠ b → t.regs[b.toNat] = s.regs[b.toNat])

/-- R105: ADD on registers holding `u` and `v` leaves `(u + v) mod 256` in the first and the second unchanged, unless they are
the same. -/
def Obligations.AddArithmeticDeterminism : Prop :=
  ∀ (a b : Byte) (s : State) (ha : a.toNat < Config.numRegs) (hb : b.toNat < Config.numRegs),
    ∃ t, exec (.add a b) s = .next t ∧
      t.regs[a.toNat].toNat = (s.regs[a.toNat].toNat + s.regs[b.toNat].toNat) % 256 ∧
      (a ≠ b → t.regs[b.toNat] = s.regs[b.toNat])

/-- R23, R110, R112, R121, R123: a register write stores the value modulo 256, and the implicit SP updates of PUSH, CALL, POP and
RET wrap too; that POP into SP leaves the popped cell plus 1 is R112's. That SP is R7, on which the clauses split, is PRESUMED by
the spec's decision D1 (log entry 2). -/
def Obligations.RegisterWritesWrap : Prop :=
  (∀ (a : Byte) (v : Nat) (s : State) (h : a.toNat < Config.numRegs),
    ∃ t, writeReg a v s = .ok t ∧ t.regs[a.toNat].toNat = v % 256) ∧
  (∀ (a : Byte) (s : State), a.toNat < Config.numRegs →
    (∃ t, exec (.push a) s = .next t ∧ t.regs[spIndex].toNat = (s.regs[spIndex].toNat + 255) % 256) ∧
    (∃ t, exec (.call a) s = .next t ∧ t.regs[spIndex].toNat = (s.regs[spIndex].toNat + 255) % 256) ∧
    (a.toNat ≠ 7 → ∃ t, exec (.pop a) s = .next t ∧ t.regs[spIndex].toNat = (s.regs[spIndex].toNat + 1) % 256) ∧
    (a.toNat = 7 → ∃ t, exec (.pop a) s = .next t ∧
      t.regs[spIndex].toNat = ((s.mem.read s.regs[spIndex].toNat).toNat + 1) % 256)) ∧
  (∀ s : State, ∃ t, exec .ret s = .next t ∧ t.regs[spIndex].toNat = (s.regs[spIndex].toNat + 1) % 256)

/-! ## Faults -/

/-- R24, R90, R92, R110, R112, R121: a register operand whose value is not below 8 raises `OutOfBounds(reg, i)` when the instruction
accesses that register. That MUL and ADD report their first operand when both are missing is R102, R104 and R134's order (D8). That
the SP update and the store PUSH and CALL made before the fault are discarded is R14 and R133 (D6). D6 and D8 are the spec's own
decisions; the model follows them in log entry 6 (DEDUCED). -/
def Obligations.MissingRegisterFaults : Prop :=
  ∀ (i : Byte) (s : State), ¬ i.toNat < 8 →
    readReg i s = .error (.outOfBounds .reg i.toNat) ∧
    (∀ v, writeReg i v s = .error (.outOfBounds .reg i.toNat)) ∧
    (∀ b, exec (.ldi i b) s = .next (takeFault (.outOfBounds .reg i.toNat) s)) ∧
    exec (.prn i) s = .next (takeFault (.outOfBounds .reg i.toNat) s) ∧
    (∀ b, exec (.mul i b) s = .next (takeFault (.outOfBounds .reg i.toNat) s)) ∧
    (∀ b, exec (.add i b) s = .next (takeFault (.outOfBounds .reg i.toNat) s)) ∧
    (∀ a : Byte, a.toNat < 8 → exec (.mul a i) s = .next (takeFault (.outOfBounds .reg i.toNat) s)) ∧
    (∀ a : Byte, a.toNat < 8 → exec (.add a i) s = .next (takeFault (.outOfBounds .reg i.toNat) s)) ∧
    exec (.push i) s = .next (takeFault (.outOfBounds .reg i.toNat) s) ∧
    exec (.pop i) s = .next (takeFault (.outOfBounds .reg i.toNat) s) ∧
    exec (.call i) s = .next (takeFault (.outOfBounds .reg i.toNat) s)

/-- R43: an access to an address not below 256 raises `OutOfBounds(mem, addr)`; it does not wrap and touches no other cell. Below
it, `MemRead` and `MemWrite` read and store the cell. No instruction's own access can exceed the bound, only a fetch can, and
then the address is 256. -/
def Obligations.MemoryAccessOutOfBoundsFaults : Prop :=
  ∀ (addr : Nat) (s : State),
    (¬ addr < 256 → memRead addr s = .error (.outOfBounds .mem addr) ∧
      ∀ v, memWrite addr v s = .error (.outOfBounds .mem addr)) ∧
    (addr < 256 → memRead addr s = .ok (s.mem.read addr) ∧
      ∀ v, memWrite addr v s = .ok { s with mem := s.mem.write addr (BitVec.ofNat 8 v) }) ∧
    (∀ (i : Instr) (t : State), s.haltReason = .none → exec i s = .next t →
      ¬ (t.haltReason = .outOfBounds ∧ t.faultSpace = false)) ∧
    (∀ f : Fault, s.pc ≤ 256 → fetch s = .error f → (∃ op, f = .invalidOpcode op) ∨ f = .outOfBounds .mem 256)

/-- R130, R133, D6, D7: taking a fault halts the block with the fault's code, writes the fault record and changes nothing
else. -/
def Obligations.TakingAFaultRecordsIt : Prop :=
  ∀ s : State,
    (∀ op : Byte, takeFault (.invalidOpcode op) s =
      { s with run := .halted, haltReason := .invalidOpcode, faultPc := s.pc, faultSpace := false, faultValue := op.toNat }) ∧
    (∀ addr, takeFault (.outOfBounds .mem addr) s =
      { s with run := .halted, haltReason := .outOfBounds, faultPc := s.pc, faultSpace := false, faultValue := addr }) ∧
    (∀ index, takeFault (.outOfBounds .reg index) s =
      { s with run := .halted, haltReason := .outOfBounds, faultPc := s.pc, faultSpace := true, faultValue := index }) ∧
    (∀ id : Byte, takeFault (.unsupportedOperation id) s =
      { s with run := .halted, haltReason := .unsupportedOperation, faultPc := s.pc, faultSpace := false,
               faultValue := id.toNat })

/-- R100, D18: the ALU's contract. Its operands are read first, `ra` before `rb`; it adds, multiplies, or raises
`UnsupportedOperation` with the identifier. The identifiers 0xA0 and 0xA2 are D2 and D18. -/
def Obligations.AluContract : Prop :=
  ∀ (op ra rb : Byte) (s : State),
    (¬ ra.toNat < 8 → aluApply op ra rb s = .error (.outOfBounds .reg ra.toNat)) ∧
    (ra.toNat < 8 → ¬ rb.toNat < 8 → aluApply op ra rb s = .error (.outOfBounds .reg rb.toNat)) ∧
    (∀ (ha : ra.toNat < Config.numRegs) (hb : rb.toNat < Config.numRegs),
      aluApply op ra rb s =
        if op = 0xA0 then .ok { s with regs := s.regs.set ra.toNat (s.regs[ra.toNat] + s.regs[rb.toNat]) ha }
        else if op = 0xA2 then .ok { s with regs := s.regs.set ra.toNat (s.regs[ra.toNat] * s.regs[rb.toNat]) ha }
        else .error (.unsupportedOperation op))

/-! ## Frames: what an instruction leaves unchanged when it gives a next state -/

/-- R90, R102, R104: LDI, MUL and ADD change no register but their first, no cell of memory, no output; and, unless a register
operand does not exist, neither the run state, the halt reason nor the fault record. -/
def Obligations.LoadAndAluFrame : Prop :=
  ∀ (i : Instr) (a b : Byte) (s t : State), i = .ldi a b ∨ i = .mul a b ∨ i = .add a b → exec i s = .next t →
    (∀ r : RegIndex, r.val ≠ a.toNat → t.regs[r] = s.regs[r]) ∧ t.out = s.out ∧
    (∀ addr, t.mem.read addr = s.mem.read addr) ∧
    (i.wellFormed = true → t.run = s.run ∧ t.haltReason = s.haltReason ∧ t.faultPc = s.faultPc ∧
      t.faultSpace = s.faultSpace ∧ t.faultValue = s.faultValue) ∧
    (i.wellFormed = false → t.regs = s.regs ∧ t.pc = s.pc)

/-- R84, R92: HLT and PRN change no register and no cell of memory. HLT changes neither the output nor the fault record. PRN,
unless its register does not exist, changes neither the run state, the halt reason nor the fault record; otherwise it emits
nothing. -/
def Obligations.HltAndPrnFrame : Prop :=
  (∀ s t : State, exec .hlt s = .next t →
    t.regs = s.regs ∧ (∀ addr, t.mem.read addr = s.mem.read addr) ∧ t.out = s.out ∧
    t.faultPc = s.faultPc ∧ t.faultSpace = s.faultSpace ∧ t.faultValue = s.faultValue) ∧
  (∀ (a : Byte) (s t : State), exec (.prn a) s = .next t →
    t.regs = s.regs ∧ (∀ addr, t.mem.read addr = s.mem.read addr) ∧
    (a.toNat < 8 → t.run = s.run ∧ t.haltReason = s.haltReason ∧ t.faultPc = s.faultPc ∧
      t.faultSpace = s.faultSpace ∧ t.faultValue = s.faultValue) ∧
    (¬ a.toNat < 8 → t.out = s.out ∧ t.pc = s.pc))

/-- R110, R121: PUSH and CALL change no register but SP and no cell of memory but the one at the decremented SP, and no output;
and, unless their register does not exist, neither the run state, the halt reason nor the fault record. If it does not exist,
nothing is stored. -/
def Obligations.PushAndCallFrame : Prop :=
  ∀ (i : Instr) (a : Byte) (s t : State), i = .push a ∨ i = .call a → exec i s = .next t →
    (∀ r : RegIndex, r ≠ spIndex → t.regs[r] = s.regs[r]) ∧ t.out = s.out ∧
    (∀ addr, addr ≠ (s.regs[spIndex] - 1).toNat → t.mem.read addr = s.mem.read addr) ∧
    (a.toNat < 8 → t.run = s.run ∧ t.haltReason = s.haltReason ∧ t.faultPc = s.faultPc ∧
      t.faultSpace = s.faultSpace ∧ t.faultValue = s.faultValue) ∧
    (¬ a.toNat < 8 → t.regs = s.regs ∧ t.mem = s.mem ∧ t.pc = s.pc)

/-- R112, R123: POP changes no register but its own and SP, RET none but SP; neither changes a cell of memory or the output;
RET, and POP unless its register does not exist, changes neither the run state, the halt reason nor the fault record. -/
def Obligations.PopAndRetFrame : Prop :=
  (∀ (a : Byte) (s t : State), exec (.pop a) s = .next t →
    (∀ r : RegIndex, r ≠ spIndex → r.val ≠ a.toNat → t.regs[r] = s.regs[r]) ∧ t.out = s.out ∧
    (∀ addr, t.mem.read addr = s.mem.read addr) ∧
    (a.toNat < 8 → t.run = s.run ∧ t.haltReason = s.haltReason ∧ t.faultPc = s.faultPc ∧
      t.faultSpace = s.faultSpace ∧ t.faultValue = s.faultValue) ∧
    (¬ a.toNat < 8 → t.regs = s.regs ∧ t.pc = s.pc)) ∧
  (∀ s t : State, exec .ret s = .next t →
    (∀ r : RegIndex, r ≠ spIndex → t.regs[r] = s.regs[r]) ∧ t.out = s.out ∧
    (∀ addr, t.mem.read addr = s.mem.read addr) ∧ t.run = s.run ∧ t.haltReason = s.haltReason ∧
    t.faultPc = s.faultPc ∧ t.faultSpace = s.faultSpace ∧ t.faultValue = s.faultValue)

/-- R22, R25: a register that an instruction does not name, other than SP, neither changes nor influences anything else the
instruction does. -/
def Obligations.UnnamedRegisterHasNoInfluence : Prop :=
  ∀ (i : Instr) (r : RegIndex) (v : Byte) (s t : State),
    r ≠ spIndex → namesRegister r i = false → exec i s = .next t →
      exec i { s with regs := s.regs.set r v } = .next { t with regs := t.regs.set r v }

/-! ## Rules of the whole machine -/

/-- Every step of every state, reachable or not, answers a next state: the spec describes the state after each of its faults, and
the model adds no stop of its own. For a halted block it is the model's choice that the step answers the same state (log
entry 4). -/
def Obligations.EveryStepAnswersANextState : Prop :=
  ∀ s : State, ∃ t, step s = .next t

/-- R27, R30, R31, R40: every step keeps the invariant. D4 and D7 fix what it says of the PC and the fault record. -/
def Obligations.StepKeepsTheInvariant : Prop :=
  ∀ s t : State, s.Inv → step s = .next t → t.Inv

/-- R150: the invariant holds after reset, whatever the registers other than SP draw. -/
def Obligations.ResetMeetsTheInvariant : Prop :=
  State.reset.Inv ∧ ∀ draw : RegFile, (State.resetWith draw).Inv

/-- R55, R141: the invariant holds where execution starts, with any image that loads and any draw. -/
def Obligations.StartMeetsTheInvariant : Prop :=
  ∀ (draw : RegFile) (image : List Nat) (s : State), start draw image = .ok s → s.Inv ∧ s.run = .running

/-- R14, R133, D6: faults are precise. A step that faults leaves the registers, the PC, memory and the output stream as they
were, halts the block, and records the PC. -/
def Obligations.FaultsArePrecise : Prop :=
  ∀ s t : State, s.run = .running → s.haltReason.isFault = false → step s = .next t → t.haltReason.isFault = true →
    t.regs = s.regs ∧ t.pc = s.pc ∧ t.mem = s.mem ∧ t.out = s.out ∧ t.run = .halted ∧ t.faultPc = s.pc

/-- R29, R84, R133, conflict C2: a running block halts only by executing HLT or by a fault, and the halt reason tells which. -/
def Obligations.OnlyHltOrAFaultHalts : Prop :=
  ∀ s t : State, s.run = .running → step s = .next t → t.run = .halted →
    (fetch s = .ok .hlt ∧ t.haltReason = .hlt) ∨ t.haltReason.isFault = true

/-- R83: while the block is halted, it fetches nothing, writes nothing and emits nothing: no transaction is issued on the memory
port, and no step changes anything. -/
def Obligations.HaltedBlockDoesNothing : Prop :=
  ∀ s : State, s.run = .halted → stepTransactions s = [] ∧ ∀ t, step s = .next t → t = s

/-- R136, D9: Halted is terminal. However many steps are taken, the state stays as it is. That each step answers the same state
is the model's (log entry 4). -/
def Obligations.HaltedIsTerminal : Prop :=
  ∀ (n : Nat) (s : State), s.run = .halted → Host.Core.run Sys2Proof.core n s = .next s

/-- R85: the end of a run does not depend on the fuel it was found under, it is a Halted state, and the machine's steps reach it;
running out of fuel is "not ended". That further steps stay there is the model's (log entry 4). -/
def Obligations.EndOfRunIsIndependentOfFuel : Prop :=
  ∀ (n m : Nat) (s t : State), runUntilHalted n s = some t → n ≤ m →
    runUntilHalted m s = some t ∧ t.run = .halted ∧ Host.Core.run Sys2Proof.core m s = .next t

/-- R100: no step raises `UnsupportedOperation`. -/
def Obligations.UnsupportedOperationIsUnreachable : Prop :=
  ∀ s t : State, s.haltReason ≠ .unsupportedOperation → step s = .next t → t.haltReason ≠ .unsupportedOperation

/-- R36, R92, R93: a step leaves the output stream alone, unless it executes PRN of an existing register, which appends that
register's value. Nothing is ever taken back. -/
def Obligations.OnlyPrnEmits : Prop :=
  ∀ s t : State, step s = .next t →
    t.out = s.out ∨
      ∃ (a : Byte) (h : a.toNat < Config.numRegs), s.run = .running ∧ fetch s = .ok (.prn a) ∧ t.out = s.out ++ [s.regs[a.toNat]]

/-- R42, conflict C9: a cell of memory changes only when a PUSH or a CALL is executed, and it is the cell at the decremented
SP. -/
def Obligations.OnlyPushAndCallStore : Prop :=
  ∀ (s t : State) (addr : Nat), step s = .next t → t.mem.read addr ≠ s.mem.read addr →
    s.run = .running ∧ addr = (s.regs[spIndex] - 1).toNat ∧ ∃ a, fetch s = .ok (.push a) ∨ fetch s = .ok (.call a)

/-- R82, R120: the PC advances by the size of the instruction executed, unless it is a CALL or a RET, which set it to an 8-bit
address; a step that faults leaves it. D4 and D6. -/
def Obligations.PcAdvancesOrIsSet : Prop :=
  ∀ s t : State, s.run = .running → s.haltReason.isFault = false → step s = .next t →
    (t.haltReason.isFault = true ∧ t.pc = s.pc) ∨
    ∃ i, fetch s = .ok i ∧
      ((t.pc = s.pc + i.size ∧ i ≠ .ret ∧ ∀ a, i ≠ .call a) ∨
        (i = .ret ∧ t.pc = (s.mem.read s.regs[spIndex].toNat).toNat) ∨ (∃ a, i = .call a ∧ t.pc < 256))

/-! ## Memory and the memory port -/

/-- R42: the accesses that reach memory. The fetch of an instruction reads its opcode cell and operand cells, in order; PUSH and
CALL write one cell, POP and RET read one cell; HLT, LDI, PRN, ADD and MUL access no memory beyond their own fetch. The addresses
and the values are those of R110, R112, R121 and R123; that SP is R7 is PRESUMED by the spec's decision D1 (log entry 2). That a
POP whose register does not exist issues its read is the model's view of the port (log entry 8, DEDUCED). -/
def Obligations.AccessesThatReachMemory : Prop :=
  (∀ (s : State) (i : Instr), fetch s = .ok i →
    fetchTransactions s = (List.range i.size).map (fun k =>
      Transaction.read (BitVec.ofNat 8 (s.pc + k)) (s.mem.read (s.pc + k)))) ∧
  (∀ (a : Byte) (s : State) (h : a.toNat < Config.numRegs),
    dataTransactions (.push a) s =
      [.write (s.regs[spIndex] - 1) (if a.toNat = 7 then s.regs[spIndex] - 1 else s.regs[a.toNat])] ∧
    dataTransactions (.call a) s = [.write (s.regs[spIndex] - 1) (BitVec.ofNat 8 (s.pc + 2))]) ∧
  (∀ (a : Byte) (s : State), dataTransactions (.pop a) s = [.read s.regs[spIndex] (s.mem.read s.regs[spIndex].toNat)]) ∧
  (∀ s : State, dataTransactions .ret s = [.read s.regs[spIndex] (s.mem.read s.regs[spIndex].toNat)]) ∧
  (∀ (a b : Byte) (s : State), dataTransactions .hlt s = [] ∧ dataTransactions (.ldi a b) s = [] ∧
    dataTransactions (.prn a) s = [] ∧ dataTransactions (.add a b) s = [] ∧ dataTransactions (.mul a b) s = [])

/-- R37, R38, R54: memory changes only through the write transactions of the port; a PUSH or a CALL whose register does not
exist issues none. What the port issues is the model's view of the step (log entry 8). -/
def Obligations.PortTransactionsAccountForMemory : Prop :=
  (∀ s t : State, step s = .next t → t.mem = s.mem.after (stepTransactions s)) ∧
  (∀ (a : Byte) (s : State), ¬ a.toNat < 8 → dataTransactions (.push a) s = [] ∧ dataTransactions (.call a) s = [])

/-- R50: a read returns the value of the most recent write to its address; with none, the image's value; where the image does not
cover it, 0. -/
def Obligations.ReadReturnsTheMostRecentWrite : Prop :=
  ∀ (image : List Nat) (m : Memory) (writes : List (Nat × Byte)) (addr : Nat),
    loadImage image = .ok m → (∀ w ∈ writes, w.1 < 256) →
      (writes.foldl (fun m w => m.write w.1 w.2) m).read addr =
        match writes.reverse.find? (fun w => w.1 = addr) with
        | some w => w.2
        | none => BitVec.ofNat 8 (image.getD addr 0)

/-- R41: before the image is loaded every cell holds 0, and the cells the image does not cover keep 0 when execution starts. -/
def Obligations.UncoveredCellsHoldZero : Prop :=
  (∀ addr, State.reset.mem.read addr = 0) ∧
  (∀ (draw : RegFile) (addr : Nat), (State.resetWith draw).mem.read addr = 0) ∧
  (∀ (draw : RegFile) (image : List Nat) (s : State) (addr : Nat),
    start draw image = .ok s → image.length ≤ addr → s.mem.read addr = 0)

/-- R55, D13: an image of at most 256 cell values is copied from address 0; a longer one, or an element that is not a cell value,
is a `LoadError`. The spec gives a `LoadError` no content and no order: that an image both too long and holding a value that is no
cell is refused as too long, and that each error carries the length or such a value, is the model's choice (log entry 16, DESIGN
CHOICE). -/
def Obligations.ImageIsCopiedFromZeroOrRefused : Prop :=
  ∀ image : List Nat,
    ((image.length ≤ 256 ∧ ∀ v ∈ image, v < 256) →
      ∃ m, loadImage image = .ok m ∧ ∀ (k : Nat) (h : k < image.length), (m.read k).toNat = image[k]) ∧
    (256 < image.length → loadImage image = .error (.tooLong image.length)) ∧
    ((image.length ≤ 256 ∧ ∃ v ∈ image, 256 ≤ v) → ∃ v ∈ image, 256 ≤ v ∧ loadImage image = .error (.notACell v))

/-! ## Stack and call symmetry -/

/-- R113 (the spec's derivation), conflict C8: N PUSHes followed by N POPs, none of them into SP, N at most 256. SP returns to its
value, and the POP with k before it yields the value of the PUSH with k after it, which is the register as PUSH read it. -/
def Obligations.StackIsLastInFirstOut : Prop :=
  ∀ (ps qs : List RegIndex) (s : State), s.mem.wf = true → ps.length ≤ 256 → qs.length = ps.length →
    (∀ q ∈ qs, q ≠ spIndex) →
    (∃ t, execAll (ps.map (fun p => .push (operandOf p)) ++ qs.map (fun q => .pop (operandOf q))) s = .next t ∧
      t.regs[spIndex] = s.regs[spIndex]) ∧
    (∀ (k : Nat) (hq : k < qs.length) (hp : ps.length - 1 - k < ps.length), ∃ u v,
      execAll ((ps.take (ps.length - 1 - k)).map (fun p => .push (operandOf p))) s = .next u ∧
      execAll (ps.map (fun p => .push (operandOf p)) ++ (qs.take (k + 1)).map (fun q => .pop (operandOf q))) s = .next v ∧
      v.regs[qs[k]] =
        if ps[ps.length - 1 - k] = spIndex then u.regs[spIndex] - 1 else u.regs[ps[ps.length - 1 - k]])

/-- R122 (the spec's derivation): a CALL at `c <= 253`, and a RET executed with the SP the CALL left and the return cell as the
CALL wrote it: execution resumes at `c + 2` with SP as before the CALL. -/
def Obligations.CallAndReturnAreSymmetric : Prop :=
  ∀ (a : Byte) (s t u : State), s.mem.wf = true → s.pc ≤ 253 → a.toNat < 8 → exec (.call a) s = .next t →
    u.regs[spIndex] = t.regs[spIndex] → u.mem.read u.regs[spIndex].toNat = t.mem.read t.regs[spIndex].toNat →
      ∃ v, exec .ret u = .next v ∧ v.pc = s.pc + 2 ∧ v.regs[spIndex] = s.regs[spIndex]

/-! ## Reset and outputs -/

/-- R28: the PC is 0 after reset, whatever the block held before. -/
def Obligations.ResetSetsThePcToZero : Prop :=
  State.reset.pc = 0 ∧ ∀ (s : State) (draw : RegFile), (s.assertReset draw).pc = 0

/-- R25, R29, R30, R31, R36, R150, R151: what reset leaves. SP is 0xF4 and every other register holds what it drew; the block is
Running; the halt reason and the fault record are clear; the output is empty; the block's reset leaves memory alone. D1 names SP,
D3 leaves the draw open, D20 keeps memory. That a step with the reset input asserted answers this state, already Running, and that
a step without it is the plain step, is the model's choice (log entry 12, DEDUCED). -/
def Obligations.ResetLeavesTheStatedValues : Prop :=
  ∀ (s : State) (draw : RegFile),
    (s.assertReset draw).regs[spIndex] = 0xF4 ∧
    (∀ r : RegIndex, r ≠ spIndex → (s.assertReset draw).regs[r] = draw[r]) ∧
    (s.assertReset draw).run = .running ∧ (s.assertReset draw).haltReason = .none ∧
    (s.assertReset draw).faultPc = 0 ∧ (s.assertReset draw).faultSpace = false ∧ (s.assertReset draw).faultValue = 0 ∧
    (s.assertReset draw).out = [] ∧ (s.assertReset draw).mem = s.mem ∧
    stepWithReset (some draw) s = .next (s.assertReset draw) ∧ stepWithReset none s = step s

/-- R30, R38, D7, D10: in a state that meets the invariant, the status outputs carry the whole fault record without truncation;
`halted` is 1 exactly when the block is Halted, and then the halt reason's code is not 0. The codes are D7's. -/
def Obligations.StatusOutputsCarryTheState : Prop :=
  (∀ s : State, s.Inv →
    s.statusOutputs.faultPc.toNat = s.faultPc ∧ s.statusOutputs.faultValue.toNat = s.faultValue ∧
    s.statusOutputs.faultSpace = s.faultSpace ∧
    (s.statusOutputs.halted = true ↔ s.run = .halted) ∧
    (s.statusOutputs.halted = true ↔ s.statusOutputs.haltReason ≠ 0)) ∧
  (HaltReason.code .none).toNat = 0 ∧ (HaltReason.code .hlt).toNat = 1 ∧ (HaltReason.code .invalidOpcode).toNat = 2 ∧
  (HaltReason.code .outOfBounds).toNat = 3 ∧ (HaltReason.code .unsupportedOperation).toNat = 4

/-- R37, R38: while the reset input is asserted the block issues no memory access; and with the input asserted or not, memory
changes only through the transactions issued. How reset is shown as a step is the model's choice (log entry 12), and so is the view
of the port (log entry 8). -/
def Obligations.AssertedResetIssuesNoMemoryAccess : Prop :=
  (∀ (draw : RegFile) (s : State), transactionsWithReset (some draw) s = []) ∧
  (∀ (rst : Option RegFile) (s t : State), stepWithReset rst s = .next t → t.mem = s.mem.after (transactionsWithReset rst s))
end

