-- ==== Sys2Proof/Laws/Memory.lean ====
section
/-! SUPPORT. Memory: a read after a write, and the canonical form every operation keeps. -/

namespace Sys2Proof.Machine

/-- An address below the first entry of a canonical memory is not listed. -/
theorem Memory.read_below (m : Memory) (low a : Nat) (h : m.wfFrom low = true) (ha : a < low) : m.read a = unlisted := by
  induction m generalizing low with
  | nil => rfl
  | cons c m ih =>
    obtain ⟨k, w⟩ := c
    simp only [Memory.wfFrom, Bool.and_eq_true, decide_eq_true_eq] at h
    have hk : k ≠ a := by omega
    simp only [Memory.read, if_neg hk]
    exact ih (k + 1) h.2 (by omega)

/-- A write leaves every other address alone; this needs no canonical form. -/
theorem Memory.read_write_ne (m : Memory) (a b : Nat) (v : Byte) (h : b ≠ a) : (m.write a v).read b = m.read b := by
  induction m with
  | nil => unfold Memory.write; split <;> simp [Memory.read, Ne.symm h]
  | cons c m ih =>
    obtain ⟨k, w⟩ := c
    unfold Memory.write
    split
    · split <;> simp [Memory.read, Ne.symm h]
    · split
      · subst k
        split <;> simp [Memory.read, Ne.symm h]
      · simp only [Memory.read, ih]

/-- A read after a write to the same address of a canonical memory gives the value written. -/
theorem Memory.read_write_self_from (m : Memory) (low a : Nat) (v : Byte) (h : m.wfFrom low = true) :
    (m.write a v).read a = v := by
  induction m generalizing low with
  | nil =>
    unfold Memory.write
    split
    · simp_all [Memory.read]
    · simp [Memory.read]
  | cons c m ih =>
    have hcons := h
    obtain ⟨k, w⟩ := c
    simp only [Memory.wfFrom, Bool.and_eq_true, decide_eq_true_eq] at h
    unfold Memory.write
    split
    · rename_i hak
      split
      · subst v
        have hk : k ≠ a := by omega
        simp only [Memory.read, if_neg hk]
        exact Memory.read_below m (k + 1) a h.2 (by omega)
      · simp [Memory.read]
    · split
      · subst k
        split
        · subst v
          exact Memory.read_below m (a + 1) a h.2 (by omega)
        · simp [Memory.read]
      · have hk : k ≠ a := by omega
        simp only [Memory.read, if_neg hk]
        exact ih (k + 1) h.2

/-- A read after a write to the same address of a canonical memory gives the value written. -/
theorem Memory.read_write_self (m : Memory) (a : Nat) (v : Byte) (h : m.wf = true) : (m.write a v).read a = v :=
  Memory.read_write_self_from m 0 a v h

/-- A read after a write, whichever address is read. -/
theorem Memory.read_write (m : Memory) (a b : Nat) (v : Byte) (h : m.wf = true) :
    (m.write a v).read b = if b = a then v else m.read b := by
  split
  · subst b; exact Memory.read_write_self m a v h
  · exact Memory.read_write_ne m a b v ‹_›

/-- The canonical form from a higher address on is the canonical form from a lower one on. -/
theorem Memory.wfFrom_mono (m : Memory) (low low' : Nat) (h : m.wfFrom low = true) (hl : low' ≤ low) : m.wfFrom low' = true := by
  cases m with
  | nil => rfl
  | cons c m =>
    obtain ⟨k, w⟩ := c
    simp only [Memory.wfFrom, Bool.and_eq_true, decide_eq_true_eq] at h ⊢
    exact ⟨⟨⟨by omega, h.1.1.2⟩, h.1.2⟩, h.2⟩

theorem Memory.write_wfFrom (m : Memory) (low a : Nat) (v : Byte) (h : m.wfFrom low = true) (hl : low ≤ a)
    (ha : a < Config.memSize) : (m.write a v).wfFrom low = true := by
  induction m generalizing low with
  | nil => unfold Memory.write; split <;> simp_all [Memory.wfFrom]
  | cons c m ih =>
    have hcons := h
    obtain ⟨k, w⟩ := c
    simp only [Memory.wfFrom, Bool.and_eq_true, decide_eq_true_eq] at h
    unfold Memory.write
    split
    · split
      · exact hcons
      · simp only [Memory.wfFrom, Bool.and_eq_true, decide_eq_true_eq]
        exact ⟨⟨⟨hl, ha⟩, by assumption⟩, ⟨⟨⟨by omega, h.1.1.2⟩, h.1.2⟩, h.2⟩⟩
    · split
      · subst k
        split
        · exact Memory.wfFrom_mono m (a + 1) low h.2 (by omega)
        · simp only [Memory.wfFrom, Bool.and_eq_true, decide_eq_true_eq]
          exact ⟨⟨⟨hl, ha⟩, by assumption⟩, h.2⟩
      · simp only [Memory.wfFrom, Bool.and_eq_true, decide_eq_true_eq]
        exact ⟨h.1, ih (k + 1) h.2 (by omega)⟩

/-- A write below `MEM_SIZE` keeps the canonical form. -/
theorem Memory.write_wf (m : Memory) (a : Nat) (v : Byte) (h : m.wf = true) (ha : a < Config.memSize) :
    (m.write a v).wf = true :=
  Memory.write_wfFrom m 0 a v h (Nat.zero_le a) ha

/-- Writing cells at consecutive addresses below `MEM_SIZE` keeps the canonical form. -/
theorem Memory.writeCells_wf (m : Memory) (a : Nat) (vs : List Byte) (h : m.wf = true) (ha : a + vs.length ≤ Config.memSize) :
    (m.writeCells a vs).wf = true := by
  induction vs generalizing m a with
  | nil => exact h
  | cons v vs ih =>
    simp only [List.length_cons] at ha
    exact ih (m.write a v) (a + 1) (Memory.write_wf m a v h (by omega)) (by omega)

/-- Writing cells leaves every address outside them alone. -/
theorem Memory.read_writeCells_outside (m : Memory) (a b : Nat) (vs : List Byte) (h : b < a ∨ a + vs.length ≤ b) :
    (m.writeCells a vs).read b = m.read b := by
  induction vs generalizing m a with
  | nil => rfl
  | cons v vs ih =>
    simp only [List.length_cons] at h
    simp only [Memory.writeCells]
    rw [ih (m.write a v) (a + 1) (by omega), Memory.read_write_ne m a b v (by omega)]

/-- The cells written are read back, in a canonical memory. -/
theorem Memory.read_writeCells_inside (m : Memory) (a k : Nat) (vs : List Byte) (hm : m.wf = true) (hk : k < vs.length)
    (ha : a + vs.length ≤ Config.memSize) : (m.writeCells a vs).read (a + k) = vs[k] := by
  induction vs generalizing m a k with
  | nil => simp at hk
  | cons v vs ih =>
    simp only [List.length_cons] at ha hk
    simp only [Memory.writeCells]
    cases k with
    | zero => rw [Memory.read_writeCells_outside _ _ _ _ (by omega)]; simpa using Memory.read_write_self m a v hm
    | succ k =>
      have := ih (m.write a v) (a + 1) k (Memory.write_wf m a v hm (by omega)) (by omega) (by omega)
      simpa [Nat.add_assoc, Nat.add_comm 1 k] using this

end Sys2Proof.Machine
end

