-- ==== Sys2Proof/Laws/State.lean ====
section
/-! SUPPORT. What each update of the state does to each of its fields: one lemma per field per update, so that no later proof
unfolds a record update. -/

namespace Sys2Proof.Machine

/-! ## `State.setReg` -/

@[simp] theorem State.setReg_regs (s : State) (r : RegIndex) (v : Byte) : (s.setReg r v).regs = s.regs.set r v := rfl
@[simp] theorem State.setReg_pc (s : State) (r : RegIndex) (v : Byte) : (s.setReg r v).pc = s.pc := rfl
@[simp] theorem State.setReg_run (s : State) (r : RegIndex) (v : Byte) : (s.setReg r v).run = s.run := rfl
@[simp] theorem State.setReg_haltReason (s : State) (r : RegIndex) (v : Byte) : (s.setReg r v).haltReason = s.haltReason := rfl
@[simp] theorem State.setReg_faultPc (s : State) (r : RegIndex) (v : Byte) : (s.setReg r v).faultPc = s.faultPc := rfl
@[simp] theorem State.setReg_faultSpace (s : State) (r : RegIndex) (v : Byte) : (s.setReg r v).faultSpace = s.faultSpace := rfl
@[simp] theorem State.setReg_faultValue (s : State) (r : RegIndex) (v : Byte) : (s.setReg r v).faultValue = s.faultValue := rfl
@[simp] theorem State.setReg_out (s : State) (r : RegIndex) (v : Byte) : (s.setReg r v).out = s.out := rfl
@[simp] theorem State.setReg_mem (s : State) (r : RegIndex) (v : Byte) : (s.setReg r v).mem = s.mem := rfl

/-! ## `State.setMem` -/

@[simp] theorem State.setMem_regs (s : State) (m : Memory) : (s.setMem m).regs = s.regs := rfl
@[simp] theorem State.setMem_pc (s : State) (m : Memory) : (s.setMem m).pc = s.pc := rfl
@[simp] theorem State.setMem_run (s : State) (m : Memory) : (s.setMem m).run = s.run := rfl
@[simp] theorem State.setMem_haltReason (s : State) (m : Memory) : (s.setMem m).haltReason = s.haltReason := rfl
@[simp] theorem State.setMem_faultPc (s : State) (m : Memory) : (s.setMem m).faultPc = s.faultPc := rfl
@[simp] theorem State.setMem_faultSpace (s : State) (m : Memory) : (s.setMem m).faultSpace = s.faultSpace := rfl
@[simp] theorem State.setMem_faultValue (s : State) (m : Memory) : (s.setMem m).faultValue = s.faultValue := rfl
@[simp] theorem State.setMem_out (s : State) (m : Memory) : (s.setMem m).out = s.out := rfl
@[simp] theorem State.setMem_mem (s : State) (m : Memory) : (s.setMem m).mem = m := rfl

/-! ## `State.setPc` -/

@[simp] theorem State.setPc_regs (s : State) (n : Nat) : (s.setPc n).regs = s.regs := rfl
@[simp] theorem State.setPc_pc (s : State) (n : Nat) : (s.setPc n).pc = n := rfl
@[simp] theorem State.setPc_run (s : State) (n : Nat) : (s.setPc n).run = s.run := rfl
@[simp] theorem State.setPc_haltReason (s : State) (n : Nat) : (s.setPc n).haltReason = s.haltReason := rfl
@[simp] theorem State.setPc_faultPc (s : State) (n : Nat) : (s.setPc n).faultPc = s.faultPc := rfl
@[simp] theorem State.setPc_faultSpace (s : State) (n : Nat) : (s.setPc n).faultSpace = s.faultSpace := rfl
@[simp] theorem State.setPc_faultValue (s : State) (n : Nat) : (s.setPc n).faultValue = s.faultValue := rfl
@[simp] theorem State.setPc_out (s : State) (n : Nat) : (s.setPc n).out = s.out := rfl
@[simp] theorem State.setPc_mem (s : State) (n : Nat) : (s.setPc n).mem = s.mem := rfl

/-! ## `State.advance` -/

@[simp] theorem State.advance_regs (s : State) (n : Nat) : (s.advance n).regs = s.regs := rfl
@[simp] theorem State.advance_pc (s : State) (n : Nat) : (s.advance n).pc = s.pc + n := rfl
@[simp] theorem State.advance_run (s : State) (n : Nat) : (s.advance n).run = s.run := rfl
@[simp] theorem State.advance_haltReason (s : State) (n : Nat) : (s.advance n).haltReason = s.haltReason := rfl
@[simp] theorem State.advance_faultPc (s : State) (n : Nat) : (s.advance n).faultPc = s.faultPc := rfl
@[simp] theorem State.advance_faultSpace (s : State) (n : Nat) : (s.advance n).faultSpace = s.faultSpace := rfl
@[simp] theorem State.advance_faultValue (s : State) (n : Nat) : (s.advance n).faultValue = s.faultValue := rfl
@[simp] theorem State.advance_out (s : State) (n : Nat) : (s.advance n).out = s.out := rfl
@[simp] theorem State.advance_mem (s : State) (n : Nat) : (s.advance n).mem = s.mem := rfl

/-! ## `State.emit` -/

@[simp] theorem State.emit_regs (s : State) (v : Byte) : (s.emit v).regs = s.regs := rfl
@[simp] theorem State.emit_pc (s : State) (v : Byte) : (s.emit v).pc = s.pc := rfl
@[simp] theorem State.emit_run (s : State) (v : Byte) : (s.emit v).run = s.run := rfl
@[simp] theorem State.emit_haltReason (s : State) (v : Byte) : (s.emit v).haltReason = s.haltReason := rfl
@[simp] theorem State.emit_faultPc (s : State) (v : Byte) : (s.emit v).faultPc = s.faultPc := rfl
@[simp] theorem State.emit_faultSpace (s : State) (v : Byte) : (s.emit v).faultSpace = s.faultSpace := rfl
@[simp] theorem State.emit_faultValue (s : State) (v : Byte) : (s.emit v).faultValue = s.faultValue := rfl
@[simp] theorem State.emit_out (s : State) (v : Byte) : (s.emit v).out = s.out ++ [v] := rfl
@[simp] theorem State.emit_mem (s : State) (v : Byte) : (s.emit v).mem = s.mem := rfl

/-! ## `State.halt` -/

@[simp] theorem State.halt_regs (s : State) (reason : HaltReason) : (s.halt reason).regs = s.regs := rfl
@[simp] theorem State.halt_pc (s : State) (reason : HaltReason) : (s.halt reason).pc = s.pc := rfl
@[simp] theorem State.halt_run (s : State) (reason : HaltReason) : (s.halt reason).run = .halted := rfl
@[simp] theorem State.halt_haltReason (s : State) (reason : HaltReason) : (s.halt reason).haltReason = reason := rfl
@[simp] theorem State.halt_faultPc (s : State) (reason : HaltReason) : (s.halt reason).faultPc = s.faultPc := rfl
@[simp] theorem State.halt_faultSpace (s : State) (reason : HaltReason) : (s.halt reason).faultSpace = s.faultSpace := rfl
@[simp] theorem State.halt_faultValue (s : State) (reason : HaltReason) : (s.halt reason).faultValue = s.faultValue := rfl
@[simp] theorem State.halt_out (s : State) (reason : HaltReason) : (s.halt reason).out = s.out := rfl
@[simp] theorem State.halt_mem (s : State) (reason : HaltReason) : (s.halt reason).mem = s.mem := rfl

/-! ## `State.recordFault` -/

@[simp] theorem State.recordFault_regs (s : State) (f : Fault) : (s.recordFault f).regs = s.regs := rfl
@[simp] theorem State.recordFault_pc (s : State) (f : Fault) : (s.recordFault f).pc = s.pc := rfl
@[simp] theorem State.recordFault_run (s : State) (f : Fault) : (s.recordFault f).run = s.run := rfl
@[simp] theorem State.recordFault_haltReason (s : State) (f : Fault) : (s.recordFault f).haltReason = s.haltReason := rfl
@[simp] theorem State.recordFault_faultPc (s : State) (f : Fault) : (s.recordFault f).faultPc = s.pc := rfl
@[simp] theorem State.recordFault_faultSpace (s : State) (f : Fault) : (s.recordFault f).faultSpace = f.spaceBit := rfl
@[simp] theorem State.recordFault_faultValue (s : State) (f : Fault) : (s.recordFault f).faultValue = f.value := rfl
@[simp] theorem State.recordFault_out (s : State) (f : Fault) : (s.recordFault f).out = s.out := rfl
@[simp] theorem State.recordFault_mem (s : State) (f : Fault) : (s.recordFault f).mem = s.mem := rfl

/-! ## `takeFault` -/

@[simp] theorem takeFault_regs (f : Fault) (s : State) : (takeFault f s).regs = s.regs := rfl
@[simp] theorem takeFault_pc (f : Fault) (s : State) : (takeFault f s).pc = s.pc := rfl
@[simp] theorem takeFault_run (f : Fault) (s : State) : (takeFault f s).run = .halted := rfl
@[simp] theorem takeFault_haltReason (f : Fault) (s : State) : (takeFault f s).haltReason = f.reason := rfl
@[simp] theorem takeFault_faultPc (f : Fault) (s : State) : (takeFault f s).faultPc = s.pc := rfl
@[simp] theorem takeFault_faultSpace (f : Fault) (s : State) : (takeFault f s).faultSpace = f.spaceBit := rfl
@[simp] theorem takeFault_faultValue (f : Fault) (s : State) : (takeFault f s).faultValue = f.value := rfl
@[simp] theorem takeFault_out (f : Fault) (s : State) : (takeFault f s).out = s.out := rfl
@[simp] theorem takeFault_mem (f : Fault) (s : State) : (takeFault f s).mem = s.mem := rfl

/-! ## `State.decSp` -/

@[simp] theorem State.decSp_regs (s : State) : s.decSp.regs = s.regs.set spIndex (s.sp - 1) := rfl
@[simp] theorem State.decSp_pc (s : State) : s.decSp.pc = s.pc := rfl
@[simp] theorem State.decSp_run (s : State) : s.decSp.run = s.run := rfl
@[simp] theorem State.decSp_haltReason (s : State) : s.decSp.haltReason = s.haltReason := rfl
@[simp] theorem State.decSp_faultPc (s : State) : s.decSp.faultPc = s.faultPc := rfl
@[simp] theorem State.decSp_faultSpace (s : State) : s.decSp.faultSpace = s.faultSpace := rfl
@[simp] theorem State.decSp_faultValue (s : State) : s.decSp.faultValue = s.faultValue := rfl
@[simp] theorem State.decSp_out (s : State) : s.decSp.out = s.out := rfl
@[simp] theorem State.decSp_mem (s : State) : s.decSp.mem = s.mem := rfl

/-! ## `State.incSp` -/

@[simp] theorem State.incSp_regs (s : State) : s.incSp.regs = s.regs.set spIndex (s.sp + 1) := rfl
@[simp] theorem State.incSp_pc (s : State) : s.incSp.pc = s.pc := rfl
@[simp] theorem State.incSp_run (s : State) : s.incSp.run = s.run := rfl
@[simp] theorem State.incSp_haltReason (s : State) : s.incSp.haltReason = s.haltReason := rfl
@[simp] theorem State.incSp_faultPc (s : State) : s.incSp.faultPc = s.faultPc := rfl
@[simp] theorem State.incSp_faultSpace (s : State) : s.incSp.faultSpace = s.faultSpace := rfl
@[simp] theorem State.incSp_faultValue (s : State) : s.incSp.faultValue = s.faultValue := rfl
@[simp] theorem State.incSp_out (s : State) : s.incSp.out = s.out := rfl
@[simp] theorem State.incSp_mem (s : State) : s.incSp.mem = s.mem := rfl

/-! ## Registers after an update of one -/

@[simp] theorem State.setReg_reg_self (s : State) (r : RegIndex) (v : Byte) : (s.setReg r v).reg r = v := by
  simp [State.reg]

theorem State.setReg_reg_ne (s : State) (r q : RegIndex) (v : Byte) (h : q ≠ r) : (s.setReg r v).reg q = s.reg q := by
  have : r.val ≠ q.val := fun e => h (Fin.ext e.symm)
  simp [State.reg, Vector.getElem_set_ne _ _ this]

/-- A register after an update, whichever it is. -/
theorem State.setReg_reg (s : State) (r q : RegIndex) (v : Byte) : (s.setReg r v).reg q = if q = r then v else s.reg q := by
  split
  · subst q; simp
  · exact State.setReg_reg_ne s r q v ‹_›

@[simp] theorem State.decSp_sp (s : State) : s.decSp.sp = s.sp - 1 := State.setReg_reg_self ..
@[simp] theorem State.incSp_sp (s : State) : s.incSp.sp = s.sp + 1 := State.setReg_reg_self ..

/-- Registers are read from the register file alone. -/
theorem State.reg_congr (s t : State) (h : t.regs = s.regs) (r : RegIndex) : t.reg r = s.reg r := by
  simp [State.reg, h]

end Sys2Proof.Machine
end

