-- ==== Sys2Proof/Laws/Ops.lean ====
section
/-! SUPPORT. One lemma per shared operation, saying everything it can do; then the effect of each instruction in closed form. -/

namespace Sys2Proof.Machine

/-! ## Truncation -/

@[simp] theorem trunc_toNat (v : Byte) : trunc v.toNat = v := by simp [trunc]

theorem trunc_toNat_eq (n : Nat) : (trunc n).toNat = n % 256 := by simp [trunc]

@[simp] theorem trunc_add (u v : Byte) : trunc (u.toNat + v.toNat) = u + v := by
  apply BitVec.eq_of_toNat_eq; simp [trunc]

@[simp] theorem trunc_mul (u v : Byte) : trunc (u.toNat * v.toNat) = u * v := by
  apply BitVec.eq_of_toNat_eq; simp [trunc]

/-- Every 8-bit address exists: `MEM_SIZE` is 256 (R43). -/
theorem byte_lt_memSize (v : Byte) : v.toNat < Config.memSize := v.isLt

/-! ## Operands -/

theorem readReg_ok (i : Byte) (s : State) (h : i.toNat < Config.numRegs) : readReg i s = .ok (s.reg ⟨i.toNat, h⟩) := dif_pos h

theorem readReg_error (i : Byte) (s : State) (h : ¬ i.toNat < Config.numRegs) :
    readReg i s = .error (.outOfBounds .reg i.toNat) := dif_neg h

theorem writeReg_ok (i : Byte) (v : Nat) (s : State) (h : i.toNat < Config.numRegs) :
    writeReg i v s = .ok (s.setReg ⟨i.toNat, h⟩ (trunc v)) := dif_pos h

theorem writeReg_error (i : Byte) (v : Nat) (s : State) (h : ¬ i.toNat < Config.numRegs) :
    writeReg i v s = .error (.outOfBounds .reg i.toNat) := dif_neg h

/-! ## Memory -/

theorem memRead_ok (a : Nat) (s : State) (h : a < Config.memSize) : memRead a s = .ok (s.mem.read a) := if_pos h

theorem memRead_error (a : Nat) (s : State) (h : ¬ a < Config.memSize) : memRead a s = .error (.outOfBounds .mem a) := if_neg h

theorem memWrite_ok (a v : Nat) (s : State) (h : a < Config.memSize) :
    memWrite a v s = .ok (s.setMem (s.mem.write a (trunc v))) := if_pos h

theorem memWrite_error (a v : Nat) (s : State) (h : ¬ a < Config.memSize) :
    memWrite a v s = .error (.outOfBounds .mem a) := if_neg h

@[simp] theorem memRead_byte (a : Byte) (s : State) : memRead a.toNat s = .ok (s.mem.read a.toNat) :=
  memRead_ok a.toNat s (byte_lt_memSize a)

@[simp] theorem memWrite_byte (a : Byte) (v : Nat) (s : State) :
    memWrite a.toNat v s = .ok (s.setMem (s.mem.write a.toNat (trunc v))) := memWrite_ok a.toNat v s (byte_lt_memSize a)

/-- A store keeps the canonical form. -/
theorem memWrite_wf (a v : Nat) (s t : State) (hm : s.mem.wf = true) (h : memWrite a v s = .ok t) : t.mem.wf = true := by
  unfold memWrite at h
  split at h
  · cases h; exact Memory.write_wf _ _ _ hm ‹_›
  · cases h

/-- Memory after reset is in its canonical form. -/
theorem State.reset_mem_wf : State.reset.mem.wf = true := rfl

/-! ## The end of a step -/

@[simp] theorem finish_error (i : Instr) (f : Fault) (s : State) : finish i (.error f) s = .next (takeFault f s) := rfl

@[simp] theorem finish_ok (i : Instr) (t s : State) :
    finish i (.ok t) s = .next (if i.setsPc then t else t.advance i.size) := rfl

/-- Everything the end of a step can answer: the fault taken on the state before, or the working copy with the PC advanced. -/
theorem finish_next (i : Instr) (e : Except Fault State) (s t : State) (h : finish i e s = .next t) :
    (∃ f, e = .error f ∧ t = takeFault f s) ∨ ∃ u, e = .ok u ∧ t = if i.setsPc then u else u.advance i.size := by
  cases e with
  | error f => rw [finish_error] at h; cases h; exact .inl ⟨f, rfl, rfl⟩
  | ok u => rw [finish_ok] at h; cases h; exact .inr ⟨u, rfl, rfl⟩

/-! ## Effects -/

/-- A register of the file after another one is set. -/
theorem RegFile.getElem_set_ne (regs : RegFile) (q r : RegIndex) (v : Byte) (h : r.val ≠ q.val) : (regs.set q v)[r] = regs[r] :=
  Vector.getElem_set_ne _ _ (Ne.symm h)

/-- A register as PUSH and CALL read it, after SP's update. -/
theorem State.decSp_reg (s : State) (r : RegIndex) : s.decSp.reg r = if r = spIndex then s.sp - 1 else s.reg r :=
  State.setReg_reg s spIndex r _

theorem ldiEffect_eq (a b : Byte) (s : State) : ldiEffect a b s =
    if h : a.toNat < Config.numRegs then .ok (s.setReg ⟨a.toNat, h⟩ b) else .error (.outOfBounds .reg a.toNat) := by
  simp [ldiEffect, writeReg]

theorem prnEffect_eq (a : Byte) (s : State) : prnEffect a s =
    if h : a.toNat < Config.numRegs then .ok (s.emit (s.reg ⟨a.toNat, h⟩)) else .error (.outOfBounds .reg a.toNat) := by
  unfold prnEffect readReg; split <;> rfl

/-- Everything the ALU can do, in the order of its lines (R100). -/
theorem aluApply_eq (op a b : Byte) (s : State) : aluApply op a b s =
    if ha : a.toNat < Config.numRegs then
      if hb : b.toNat < Config.numRegs then
        if op = opcAdd then .ok (s.setReg ⟨a.toNat, ha⟩ (s.reg ⟨a.toNat, ha⟩ + s.reg ⟨b.toNat, hb⟩))
        else if op = opcMul then .ok (s.setReg ⟨a.toNat, ha⟩ (s.reg ⟨a.toNat, ha⟩ * s.reg ⟨b.toNat, hb⟩))
        else .error (.unsupportedOperation op)
      else .error (.outOfBounds .reg b.toNat)
    else .error (.outOfBounds .reg a.toNat) := by
  by_cases ha : a.toNat < Config.numRegs
  · by_cases hb : b.toNat < Config.numRegs
    · simp only [aluApply, readReg_ok a s ha, readReg_ok b s hb, writeReg_ok a _ s ha, bind, Except.bind, dif_pos ha, dif_pos hb,
        trunc_add, trunc_mul]
    · simp only [aluApply, readReg_ok a s ha, readReg_error b s hb, bind, Except.bind, dif_pos ha, dif_neg hb]
  · simp only [aluApply, readReg_error a s ha, bind, Except.bind, dif_neg ha]

theorem mulEffect_eq (a b : Byte) (s : State) : mulEffect a b s =
    if ha : a.toNat < Config.numRegs then
      if hb : b.toNat < Config.numRegs then .ok (s.setReg ⟨a.toNat, ha⟩ (s.reg ⟨a.toNat, ha⟩ * s.reg ⟨b.toNat, hb⟩))
      else .error (.outOfBounds .reg b.toNat)
    else .error (.outOfBounds .reg a.toNat) := by
  have h : opcMul ≠ opcAdd := by decide
  simp only [mulEffect, aluApply_eq, if_neg h, if_true]

theorem addEffect_eq (a b : Byte) (s : State) : addEffect a b s =
    if ha : a.toNat < Config.numRegs then
      if hb : b.toNat < Config.numRegs then .ok (s.setReg ⟨a.toNat, ha⟩ (s.reg ⟨a.toNat, ha⟩ + s.reg ⟨b.toNat, hb⟩))
      else .error (.outOfBounds .reg b.toNat)
    else .error (.outOfBounds .reg a.toNat) := by
  simp only [addEffect, aluApply_eq, if_true]

theorem pushEffect_eq (a : Byte) (s : State) : pushEffect a s =
    if h : a.toNat < Config.numRegs then
      .ok (s.decSp.setMem (s.mem.write (s.sp - 1).toNat (s.decSp.reg ⟨a.toNat, h⟩)))
    else .error (.outOfBounds .reg a.toNat) := by
  by_cases h : a.toNat < Config.numRegs
  · simp only [pushEffect, readReg_ok a _ h, bind, Except.bind, memWrite_byte, State.decSp_sp, State.decSp_mem, trunc_toNat,
      dif_pos h]
  · simp only [pushEffect, readReg_error a _ h, bind, Except.bind, dif_neg h]

theorem popEffect_eq (a : Byte) (s : State) : popEffect a s =
    if h : a.toNat < Config.numRegs then .ok (s.setReg ⟨a.toNat, h⟩ (s.mem.read s.sp.toNat)).incSp
    else .error (.outOfBounds .reg a.toNat) := by
  by_cases h : a.toNat < Config.numRegs
  · simp only [popEffect, memRead_byte, writeReg_ok a _ s h, bind, Except.bind, trunc_toNat, dif_pos h]; rfl
  · simp only [popEffect, memRead_byte, writeReg_error a _ s h, bind, Except.bind, dif_neg h]

theorem callEffect_eq (a : Byte) (s : State) : callEffect a s =
    if h : a.toNat < Config.numRegs then
      .ok ((s.decSp.setMem (s.mem.write (s.sp - 1).toNat (trunc (s.pc + 2)))).setPc (s.decSp.reg ⟨a.toNat, h⟩).toNat)
    else .error (.outOfBounds .reg a.toNat) := by
  by_cases h : a.toNat < Config.numRegs
  · simp only [callEffect, memWrite_byte, bind, Except.bind, readReg_ok a _ h, State.decSp_sp, State.decSp_mem, dif_pos h]; rfl
  · simp only [callEffect, memWrite_byte, bind, Except.bind, readReg_error a _ h, dif_neg h]

theorem retEffect_eq (s : State) : retEffect s = .ok (s.incSp.setPc (s.mem.read s.sp.toNat).toNat) := by
  simp only [retEffect, memRead_byte, bind, Except.bind]; rfl

/-! ## Dispatch -/

/-- The effect of an instruction on the working copy. -/
def effectOf (i : Instr) (s : State) : Except Fault State :=
  match i with
  | .hlt => hltEffect s
  | .ldi a b => ldiEffect a b s
  | .prn a => prnEffect a s
  | .mul a b => mulEffect a b s
  | .add a b => addEffect a b s
  | .push a => pushEffect a s
  | .pop a => popEffect a s
  | .call a => callEffect a s
  | .ret => retEffect s

/-- Every arm of `exec` is the end of a step over the instruction's effect. -/
theorem exec_eq_finish (i : Instr) (s : State) : exec i s = finish i (effectOf i s) s := by
  cases i <;> rfl

/-- Everything an instruction can answer as its next state. -/
theorem exec_next (i : Instr) (s t : State) (h : exec i s = .next t) :
    (∃ f, effectOf i s = .error f ∧ t = takeFault f s) ∨
      ∃ u, effectOf i s = .ok u ∧ t = if i.setsPc then u else u.advance i.size := by
  rw [exec_eq_finish] at h
  exact finish_next i _ s t h

end Sys2Proof.Machine
end

