-- ==== Sys2Proof/Laws/PerInstr.lean ====
section
/-! SUPPORT. Statements about every instruction as syntax, one lemma per constructor. -/

namespace Sys2Proof.Laws.EncodedSize

/-- The encoding has as many cells as the instruction's size, which is 1, 2 or 3 (R60). -/
def Statement (i : Instr) : Prop := (encode i).length = i.size ∧ 1 ≤ i.size ∧ i.size ≤ 3

theorem hlt : Statement .hlt := by simp [Statement, encode, Instr.size]
theorem ldi (a b : Byte) : Statement (.ldi a b) := by simp [Statement, encode, Instr.size]
theorem prn (a : Byte) : Statement (.prn a) := by simp [Statement, encode, Instr.size]
theorem mul (a b : Byte) : Statement (.mul a b) := by simp [Statement, encode, Instr.size]
theorem add (a b : Byte) : Statement (.add a b) := by simp [Statement, encode, Instr.size]
theorem push (a : Byte) : Statement (.push a) := by simp [Statement, encode, Instr.size]
theorem pop (a : Byte) : Statement (.pop a) := by simp [Statement, encode, Instr.size]
theorem call (a : Byte) : Statement (.call a) := by simp [Statement, encode, Instr.size]
theorem ret : Statement .ret := by simp [Statement, encode, Instr.size]

end Sys2Proof.Laws.EncodedSize
end

