-- ==== Sys2Proof/Laws/Step.lean ====
section
/-! SUPPORT. The lookup, the decoder and the step: one lemma each, saying everything it can do. -/

namespace Sys2Proof

/-- A row the lookup finds is a row of the table with that opcode. -/
theorem findHandler_some (op : Byte) (h : Handler) (hs : List Handler) (e : findHandler op hs = some h) :
    h ∈ hs ∧ h.opcode = op := by
  induction hs with
  | nil => cases e
  | cons g hs ih =>
    unfold findHandler at e
    split at e
    · cases e; exact ⟨List.mem_cons_self .., by assumption⟩
    · exact ⟨List.mem_cons_of_mem _ (ih e).1, (ih e).2⟩

/-- The instruction a row builds has the row's size. -/
theorem lookup_size (op : Byte) (h : Handler) (a b : Byte) (e : lookup op = some h) : (h.build a b).size = h.size := by
  have hm := (findHandler_some op h opcodeTable e).1
  simp only [opcodeTable, List.mem_cons, List.not_mem_nil, or_false] at hm
  rcases hm with rfl | rfl | rfl | rfl | rfl | rfl | rfl | rfl | rfl <;> rfl

/-- The cells of the instruction a row builds: its opcode, and the operands its size has room for. -/
theorem lookup_encode (op : Byte) (h : Handler) (a b : Byte) (e : lookup op = some h) :
    encode (h.build a b) = op :: ([a, b].take (h.size - 1)) := by
  obtain ⟨hm, rfl⟩ := findHandler_some op h opcodeTable e
  simp only [opcodeTable, List.mem_cons, List.not_mem_nil, or_false] at hm
  rcases hm with rfl | rfl | rfl | rfl | rfl | rfl | rfl | rfl | rfl <;> rfl

/-- A row's size is 1, 2 or 3 (R60). -/
theorem lookup_size_cases (op : Byte) (h : Handler) (e : lookup op = some h) : h.size = 1 ∨ h.size = 2 ∨ h.size = 3 := by
  have hm := (findHandler_some op h opcodeTable e).1
  simp only [opcodeTable, List.mem_cons, List.not_mem_nil, or_false] at hm
  rcases hm with rfl | rfl | rfl | rfl | rfl | rfl | rfl | rfl | rfl <;> simp

/-- The opcode of a table row finds that row. -/
theorem lookup_encode_head (i : Instr) : ∃ op rest h, encode i = op :: rest ∧ lookup op = some h ∧ h.size = i.size := by
  cases i <;> exact ⟨_, _, _, rfl, rfl, rfl⟩

/-- What the decoder answers, for a reader of cells: an instruction, all of whose cells were read, in order. -/
theorem decodeAt_ok {ε : Type} (read : Nat → Except ε Byte) (invalid : Byte → ε) (pc : Nat) (i : Instr)
    (e : decodeAt read invalid pc = .ok i) :
    ∃ op h a b, read pc = .ok op ∧ lookup op = some h ∧ i = h.build a b ∧
      (2 ≤ h.size → read (pc + 1) = .ok a) ∧ (h.size = 3 → read (pc + 2) = .ok b) := by
  unfold decodeAt at e
  cases h0 : read pc with
  | error x => simp [h0, bind, Except.bind] at e
  | ok op =>
    cases hl : lookup op with
    | none => simp [h0, hl, bind, Except.bind] at e
    | some h =>
      simp only [h0, hl, bind, Except.bind] at e
      rcases lookup_size_cases op h hl with hs | hs | hs
      · simp [hs, pure, Except.pure] at e
        exact ⟨op, h, _, _, rfl, hl, e.symm, by omega, by omega⟩
      · cases h1 : read (pc + 1) with
        | error x => simp [hs, h1] at e
        | ok a =>
          simp [hs, h1, pure, Except.pure] at e
          exact ⟨op, h, a, _, rfl, hl, e.symm, fun _ => rfl, by omega⟩
      · cases h1 : read (pc + 1) with
        | error x => simp [hs, h1] at e
        | ok a =>
          cases h2 : read (pc + 2) with
          | error x => simp [hs, h1, h2] at e
          | ok b =>
            simp [hs, h1, h2, pure, Except.pure] at e
            exact ⟨op, h, a, b, rfl, hl, e.symm, fun _ => rfl, fun _ => rfl⟩

/-- The decoder's errors: a cell that cannot be read, or a byte that is no opcode. -/
theorem decodeAt_error {ε : Type} (read : Nat → Except ε Byte) (invalid : Byte → ε) (pc : Nat) (x : ε)
    (e : decodeAt read invalid pc = .error x) :
    read pc = .error x ∨ (∃ op, read pc = .ok op ∧ lookup op = none ∧ x = invalid op) ∨
      (∃ op h, read pc = .ok op ∧ lookup op = some h ∧ 2 ≤ h.size ∧ read (pc + 1) = .error x) ∨
      (∃ op h a, read pc = .ok op ∧ lookup op = some h ∧ h.size = 3 ∧ read (pc + 1) = .ok a ∧ read (pc + 2) = .error x) := by
  unfold decodeAt at e
  cases h0 : read pc with
  | error y => simp [h0, bind, Except.bind] at e; exact .inl (by rw [e])
  | ok op =>
    cases hl : lookup op with
    | none => simp [h0, hl, bind, Except.bind] at e; exact .inr (.inl ⟨op, rfl, hl, e.symm⟩)
    | some h =>
      simp only [h0, hl, bind, Except.bind] at e
      rcases lookup_size_cases op h hl with hs | hs | hs
      · simp [hs, pure, Except.pure] at e
      · cases h1 : read (pc + 1) with
        | error y => simp [hs, h1] at e; exact .inr (.inr (.inl ⟨op, h, rfl, hl, by omega, by rw [e]⟩))
        | ok a => simp [hs, h1, pure, Except.pure] at e
      · cases h1 : read (pc + 1) with
        | error y => simp [hs, h1] at e; exact .inr (.inr (.inl ⟨op, h, rfl, hl, by omega, by rw [e]⟩))
        | ok a =>
          cases h2 : read (pc + 2) with
          | error y => simp [hs, h1, h2] at e; exact .inr (.inr (.inr ⟨op, h, a, rfl, hl, hs, rfl, by rw [e]⟩))
          | ok b => simp [hs, h1, h2, pure, Except.pure] at e

end Sys2Proof

namespace Sys2Proof.Machine

/-! ## Fetch -/

/-- A fetched instruction's cells all lie in memory. -/
theorem fetch_ok_size (s : State) (i : Instr) (e : fetch s = .ok i) : s.pc + i.size ≤ Config.memSize := by
  obtain ⟨op, h, a, b, h0, hl, rfl, h1, h2⟩ := decodeAt_ok _ _ _ _ e
  rw [lookup_size op h a b hl]
  have bound (addr : Nat) (v : Byte) (hr : memRead addr s = .ok v) : addr < Config.memSize := by
    unfold memRead at hr; split at hr
    · assumption
    · cases hr
  rcases lookup_size_cases op h hl with hs | hs | hs
  · have := bound _ _ h0; omega
  · have := bound _ _ (h1 (by omega)); omega
  · have := bound _ _ (h2 hs); omega

/-- The faults a fetch raises: an address at or past the end of memory, the first one from the PC on that is; or a byte that is
no opcode. -/
theorem fetch_error (s : State) (f : Fault) (e : fetch s = .error f) :
    (∃ a, f = .outOfBounds .mem a ∧ Config.memSize ≤ a ∧ s.pc ≤ a ∧ (s.pc ≤ Config.memSize → a = Config.memSize)) ∨
      ∃ op, f = .invalidOpcode op ∧ lookup op = none := by
  have fault (addr : Nat) (hr : memRead addr s = .error f) : f = .outOfBounds .mem addr ∧ Config.memSize ≤ addr := by
    unfold memRead at hr; split at hr
    · cases hr
    · cases hr; exact ⟨rfl, by omega⟩
  have bound (addr : Nat) (v : Byte) (hr : memRead addr s = .ok v) : addr < Config.memSize := by
    unfold memRead at hr; split at hr
    · assumption
    · cases hr
  rcases decodeAt_error _ _ _ _ e with h0 | ⟨op, _, hl, rfl⟩ | ⟨_, _, h0, _, _, h1⟩ | ⟨_, _, _, h0, _, _, h1, h2⟩
  · have ⟨hf, hb⟩ := fault _ h0; exact .inl ⟨_, hf, hb, by omega, by omega⟩
  · exact .inr ⟨op, rfl, hl⟩
  · have ⟨hf, hb⟩ := fault _ h1; have := bound _ _ h0; exact .inl ⟨_, hf, hb, by omega, by omega⟩
  · have ⟨hf, hb⟩ := fault _ h2; have := bound _ _ h1; exact .inl ⟨_, hf, hb, by omega, by omega⟩

/-! ## Effects -/

/-- The only fault an effect raises at `MEM_SIZE` 256: a register index that no register has. -/
theorem effectOf_error (i : Instr) (s : State) (f : Fault) (e : effectOf i s = .error f) :
    ∃ n, f = .outOfBounds .reg n ∧ Config.numRegs ≤ n ∧ n < 256 := by
  have reg (a : Byte) (ha : ¬ a.toNat < Config.numRegs) (hf : Fault.outOfBounds .reg a.toNat = f) :
      ∃ n, f = .outOfBounds .reg n ∧ Config.numRegs ≤ n ∧ n < 256 := ⟨_, hf.symm, Nat.le_of_not_lt ha, a.isLt⟩
  cases i with
  | hlt => cases e
  | ldi a b => rw [effectOf, ldiEffect_eq] at e; split at e <;> cases e; exact reg a ‹_› rfl
  | prn a => rw [effectOf, prnEffect_eq] at e; split at e <;> cases e; exact reg a ‹_› rfl
  | mul a b =>
    rw [effectOf, mulEffect_eq] at e; split at e
    · split at e <;> cases e; exact reg b ‹_› rfl
    · cases e; exact reg a ‹_› rfl
  | add a b =>
    rw [effectOf, addEffect_eq] at e; split at e
    · split at e <;> cases e; exact reg b ‹_› rfl
    · cases e; exact reg a ‹_› rfl
  | push a => rw [effectOf, pushEffect_eq] at e; split at e <;> cases e; exact reg a ‹_› rfl
  | pop a => rw [effectOf, popEffect_eq] at e; split at e <;> cases e; exact reg a ‹_› rfl
  | call a => rw [effectOf, callEffect_eq] at e; split at e <;> cases e; exact reg a ‹_› rfl
  | ret => rw [effectOf, retEffect_eq] at e; cases e

/-- What an effect that raises no fault leaves, by state: HLT halts; no other effect touches the run state, the halt reason or the
fault record; only PUSH and CALL write memory, one cell; only PRN emits; only RET and CALL set the PC. -/
theorem effectOf_ok (i : Instr) (s u : State) (h : effectOf i s = .ok u) :
    (i = .hlt ∧ u = s.halt .hlt) ∨
    (u.run = s.run ∧ u.haltReason = s.haltReason ∧ u.faultPc = s.faultPc ∧ u.faultSpace = s.faultSpace ∧
      u.faultValue = s.faultValue ∧
      (u.mem = s.mem ∨ (∃ a, i = .push a ∨ i = .call a) ∧ ∃ v, u.mem = s.mem.write (s.sp - 1).toNat v) ∧
      (u.out = s.out ∨ ∃ (a : Byte) (ha : a.toNat < Config.numRegs), i = .prn a ∧ u.out = s.out ++ [s.reg ⟨a.toNat, ha⟩]) ∧
      (u.pc = s.pc ∧ i.setsPc = false ∨ i = .ret ∧ u.pc = (s.mem.read s.sp.toNat).toNat ∨ ∃ a, i = .call a ∧ u.pc < 256)) := by
  cases i with
  | hlt => cases h; exact .inl ⟨rfl, rfl⟩
  | ldi a b =>
    rw [effectOf, ldiEffect_eq] at h; split at h <;> cases h
    exact .inr ⟨rfl, rfl, rfl, rfl, rfl, .inl rfl, .inl rfl, .inl ⟨rfl, rfl⟩⟩
  | prn a =>
    rw [effectOf, prnEffect_eq] at h; split at h <;> cases h
    exact .inr ⟨rfl, rfl, rfl, rfl, rfl, .inl rfl, .inr ⟨a, ‹_›, rfl, rfl⟩, .inl ⟨rfl, rfl⟩⟩
  | mul a b =>
    rw [effectOf, mulEffect_eq] at h; split at h
    · split at h <;> cases h
      exact .inr ⟨rfl, rfl, rfl, rfl, rfl, .inl rfl, .inl rfl, .inl ⟨rfl, rfl⟩⟩
    · cases h
  | add a b =>
    rw [effectOf, addEffect_eq] at h; split at h
    · split at h <;> cases h
      exact .inr ⟨rfl, rfl, rfl, rfl, rfl, .inl rfl, .inl rfl, .inl ⟨rfl, rfl⟩⟩
    · cases h
  | push a =>
    rw [effectOf, pushEffect_eq] at h; split at h <;> cases h
    exact .inr ⟨rfl, rfl, rfl, rfl, rfl, .inr ⟨⟨a, .inl rfl⟩, _, rfl⟩, .inl rfl, .inl ⟨rfl, rfl⟩⟩
  | pop a =>
    rw [effectOf, popEffect_eq] at h; split at h <;> cases h
    exact .inr ⟨rfl, rfl, rfl, rfl, rfl, .inl rfl, .inl rfl, .inl ⟨rfl, rfl⟩⟩
  | call a =>
    rw [effectOf, callEffect_eq] at h; split at h <;> cases h
    exact .inr ⟨rfl, rfl, rfl, rfl, rfl, .inr ⟨⟨a, .inr rfl⟩, _, rfl⟩, .inl rfl, .inr (.inr ⟨a, rfl, BitVec.isLt _⟩)⟩
  | ret =>
    rw [effectOf, retEffect_eq] at h; cases h
    exact .inr ⟨rfl, rfl, rfl, rfl, rfl, .inl rfl, .inl rfl, .inr (.inl ⟨rfl, rfl⟩)⟩

/-! ## The step -/

@[simp] theorem step_halted (s : State) (h : s.run = .halted) : step s = .next s := by simp [step, h, holdHalted]

theorem step_running_error (s : State) (f : Fault) (h : s.run = .running) (e : fetch s = .error f) :
    step s = .next (takeFault f s) := by simp [step, h, e, raiseFault]

theorem step_running_ok (s : State) (i : Instr) (h : s.run = .running) (e : fetch s = .ok i) : step s = exec i s := by
  simp [step, h, e]

/-- Everything a step can answer as its next state. -/
theorem step_next (s t : State) (h : step s = .next t) :
    (s.run = .halted ∧ t = s) ∨
    (s.run = .running ∧ ∃ f, fetch s = .error f ∧ t = takeFault f s) ∨
    (s.run = .running ∧ ∃ i, fetch s = .ok i ∧ ∃ f, effectOf i s = .error f ∧ t = takeFault f s) ∨
    (s.run = .running ∧ ∃ i, fetch s = .ok i ∧ ∃ u, effectOf i s = .ok u ∧ t = if i.setsPc then u else u.advance i.size) := by
  cases hr : s.run with
  | halted => rw [step_halted s hr] at h; cases h; exact .inl ⟨rfl, rfl⟩
  | running =>
    cases hf : fetch s with
    | error f => rw [step_running_error s f hr hf] at h; cases h; exact .inr (.inl ⟨rfl, f, rfl, rfl⟩)
    | ok i =>
      rw [step_running_ok s i hr hf, exec_eq_finish] at h
      rcases finish_next i _ s t h with ⟨f, he, ht⟩ | ⟨u, he, ht⟩
      · exact .inr (.inr (.inl ⟨rfl, i, rfl, f, he, ht⟩))
      · exact .inr (.inr (.inr ⟨rfl, i, rfl, u, he, ht⟩))

/-! ## Loading and the memory port -/

/-- An image that loads has at most `MEM_SIZE` elements, all of them cell values, and memory is its cells from address 0. -/
theorem loadImage_ok (image : List Nat) (m : Memory) (h : loadImage image = .ok m) :
    image.length ≤ Config.memSize ∧ firstNonCell image = none ∧ m = Memory.writeCells [] 0 (image.map trunc) := by
  unfold loadImage at h
  split at h
  · cases h
  · split at h
    · cases h
    · cases h; exact ⟨Nat.le_of_not_lt ‹_›, ‹_›, rfl⟩

/-- A loaded image's memory is in its canonical form. -/
theorem loadImage_wf (image : List Nat) (m : Memory) (h : loadImage image = .ok m) : m.wf = true := by
  obtain ⟨hl, _, rfl⟩ := loadImage_ok image m h
  exact Memory.writeCells_wf _ _ _ rfl (by simpa using hl)

/-- Where execution starts: the reset state with the image in memory. -/
theorem start_ok (draw : RegFile) (image : List Nat) (s : State) (h : start draw image = .ok s) :
    ∃ m, loadImage image = .ok m ∧ s = (State.resetWith draw).setMem m := by
  unfold start at h
  cases hl : loadImage image with
  | error e => simp [hl, bind, Except.bind] at h
  | ok m => simp [hl, bind, Except.bind, pure, Except.pure] at h; exact ⟨m, rfl, h.symm⟩

theorem portRead_byte (a : Byte) (s : State) : portRead a.toNat s = [.read a (s.mem.read a.toNat)] := by
  unfold portRead; rw [if_pos (byte_lt_memSize a), trunc_toNat]

theorem portWrite_byte (a v : Byte) : portWrite a.toNat v = [.write a v] := by
  unfold portWrite; rw [if_pos (byte_lt_memSize a), trunc_toNat]

/-- Transactions take effect in order. -/
theorem Memory.after_append (m : Memory) (xs ys : List Transaction) : m.after (xs ++ ys) = (m.after xs).after ys := by
  induction xs generalizing m with
  | nil => rfl
  | cons x xs ih => cases x <;> simp [Memory.after, ih]

/-- A read changes nothing (R46). -/
theorem Memory.after_portRead (m : Memory) (a : Nat) (s : State) : m.after (portRead a s) = m := by
  unfold portRead; split <;> rfl

/-! ## The reset input -/

@[simp] theorem stepWithReset_some (draw : RegFile) (s : State) : stepWithReset (some draw) s = .next (s.assertReset draw) := rfl

@[simp] theorem stepWithReset_none (s : State) : stepWithReset none s = step s := rfl

@[simp] theorem transactionsWithReset_some (draw : RegFile) (s : State) : transactionsWithReset (some draw) s = [] := rfl

@[simp] theorem transactionsWithReset_none (s : State) : transactionsWithReset none s = stepTransactions s := rfl

end Sys2Proof.Machine
end

