-- ==== Sys2Proof/Tests/Slice0.lean ====
section
/-! SUPPORT. The model's own tests. Every expected result is from the spec: the vectors of spec/95_test_vectors.md (cited by
their numbers) or the rule named. After them, a witness for the hypotheses of each statement of
Sys2Proof/Certificates/Slice0/Obligations.lean. -/

namespace Sys2Proof.Tests

open Sys2Proof.Machine

/-- A running block: R0, R1 and SP as given, `cells` in memory from the PC on, one more cell at `a`, the rest as after reset. -/
def bench (pc : Nat) (cells : List Byte) (r0 r1 sp : Byte) (a : Nat := 0xF0) (v : Byte := 0) : State :=
  { State.resetWith #v[r0, r1, 0, 0, 0, 0, 0, 0] with
    pc := pc
    regs := #v[r0, r1, 0, 0, 0, 0, 0, sp]
    mem := Memory.writeCells (Memory.write [] a v) pc cells }

/-- A field of the state an outcome goes on to. -/
def seen {α : Type} (o : Host.Outcome State Fault Refusal) (f : State → α) : Option α :=
  match o with
  | .next t => some (f t)
  | .fault _ => none
  | .refused _ => none

/-- The halt reason, `fault_space` and `fault_value`: the vectors' "fault (c, s, v)". -/
def faultSeen (s : State) : HaltReason × Bool × Nat := (s.haltReason, s.faultSpace, s.faultValue)

/-! ## Well-formedness: each register operand's check refuses an ill-formed term -/

theorem test_illformed_ldi : (Instr.ldi 8 1).wellFormed = false := by decide
theorem test_illformed_prn : (Instr.prn 8).wellFormed = false := by decide
theorem test_illformed_mul_first : (Instr.mul 8 0).wellFormed = false := by decide
theorem test_illformed_mul_second : (Instr.mul 0 8).wellFormed = false := by decide
theorem test_illformed_add_first : (Instr.add 9 0).wellFormed = false := by decide
theorem test_illformed_add_second : (Instr.add 0 9).wellFormed = false := by decide
theorem test_illformed_push : (Instr.push 8).wellFormed = false := by decide
theorem test_illformed_pop : (Instr.pop 8).wellFormed = false := by decide
theorem test_illformed_call : (Instr.call 0xFF).wellFormed = false := by decide
theorem test_wellformed_immediate : (Instr.ldi 7 0xFF).wellFormed = true := by decide

/-! ## Decoding: words written out from R66, and D-2 to D-5 -/

theorem test_decode_hlt : decode [0b00000001] = .ok (.hlt, []) := rfl
theorem test_decode_ldi : decode [0b10000010, 0x00, 0x2A] = .ok (.ldi 0 42, []) := rfl
theorem test_decode_prn : decode [0b01000111, 0x00] = .ok (.prn 0, []) := rfl
theorem test_decode_mul : decode [0b10100010, 0x00, 0x01] = .ok (.mul 0 1, []) := rfl
theorem test_decode_add : decode [0b10100000, 0x00, 0x01] = .ok (.add 0 1, []) := rfl
theorem test_decode_push : decode [0b01000101, 0x07] = .ok (.push 7, []) := rfl
theorem test_decode_pop : decode [0b01000110, 0x01] = .ok (.pop 1, []) := rfl
theorem test_decode_call : decode [0b01010000, 0x01] = .ok (.call 1, []) := rfl
theorem test_decode_ret : decode [0b00010001, 0x99] = .ok (.ret, [0x99]) := rfl
theorem test_decode_zero_is_invalid : decode [0x00, 0x01] = .error (.invalidOpcode 0x00) := rfl
theorem test_decode_ff_is_invalid : decode [0xFF] = .error (.invalidOpcode 0xFF) := rfl
theorem test_decode_a1_is_invalid : decode [0xA1, 0, 1] = .error (.invalidOpcode 0xA1) := rfl
theorem test_decode_81_is_invalid : decode [0x81, 0, 1] = .error (.invalidOpcode 0x81) := rfl
theorem test_decode_cut : decode [0x82, 0x00] = .error (.missingCell 2) := rfl

/-- The word 0x2A0082 has LDI's opcode in bits 7..0, register 0 in bits 15..8 and 42 in bits 23..16. -/
theorem test_table_word : decodeTableWord 24 0x2A0082 = some (.ldi 0 42) := rfl
/-- With 8 bits given, the operand cells are 0. -/
theorem test_table_word_short : decodeTableWord 8 0x2A0082 = some (.ldi 0 0) := rfl
theorem test_table_word_refused : decodeTableWord 8 0x00 = none := rfl
theorem test_fetch_word_runs : fetch (State.reset.withFetchWord 24 0x2A0082) = .ok (.ldi 0 42) := rfl

/-! ## Fetching (D-1, D-6 to D-11) -/

theorem test_fetch_invalid_opcode : seen (step State.reset) (fun t => (faultSeen t, t.pc, t.faultPc)) =
    some ((.invalidOpcode, false, 0), 0, 0) := by decide
theorem test_fetch_operand_past_memory : seen (step (bench 0xFE [0x82, 0x00] 5 0 0xF4)) (fun t => (faultSeen t, t.faultPc, t.reg 0)) =
    some ((.outOfBounds, false, 256), 0xFE, 5) := by decide
theorem test_fetch_opcode_past_memory : seen (step (bench 256 [] 0 0 0xF4)) (fun t => (faultSeen t, t.faultPc)) =
    some ((.outOfBounds, false, 256), 256) := by decide

/-! ## The instructions, at most two each -/

/-- D-6: HLT in the last cell. -/
theorem test_hlt_in_last_cell : seen (step (bench 255 [0x01] 0 0 0xF4)) (fun t => (t.run, t.haltReason, t.pc, t.faultPc)) =
    some (.halted, .hlt, 256, 0) := by decide
/-- H-3. -/
theorem test_halted_keeps_its_state : seen (step { bench 0 [0x82, 0, 1] 7 0 0xF4 with run := .halted }) (fun t => (t.pc, t.reg 0)) =
    some (0, 7) := by decide
/-- L-4: LDI into SP. -/
theorem test_ldi_sp : seen (step (bench 0 [0x82, 0x07, 0x10] 0 0 0xF4)) (fun t => (t.sp, t.pc)) = some (0x10, 3) := by decide
/-- L-5. -/
theorem test_ldi_missing_register : seen (step (bench 0 [0x82, 0x08, 0x01] 0 0 0xF4)) (fun t => (faultSeen t, t.pc)) =
    some ((.outOfBounds, true, 8), 0) := by decide
/-- P-4. -/
theorem test_prn_sp : seen (step (bench 3 [0x47, 0x07] 0 0 0xF4)) (fun t => (t.out, t.pc)) = some ([244], 5) := by decide
/-- P-5. -/
theorem test_prn_missing_register : seen (step (bench 0 [0x47, 0x08] 0 0 0xF4)) (fun t => (faultSeen t, t.out)) =
    some ((.outOfBounds, true, 8), []) := by decide
/-- M-3. -/
theorem test_mul_wraps : seen (step (bench 0 [0xA2, 0x00, 0x01] 255 255 0xF4)) (fun t => (t.reg 0, t.reg 1, t.pc)) =
    some (1, 255, 3) := by decide
/-- M-9: the source is the destination. -/
theorem test_mul_square : seen (step (bench 0 [0xA2, 0x00, 0x00] 20 0 0xF4)) (fun t => t.reg 0) = some 144 := by decide
/-- A-1. -/
theorem test_add_wraps : seen (step (bench 0 [0xA0, 0x00, 0x01] 200 100 0xF4)) (fun t => (t.reg 0, t.reg 1, t.pc)) =
    some (44, 100, 3) := by decide
/-- A-7. -/
theorem test_add_missing_second : seen (step (bench 0 [0xA0, 0x00, 0x09] 1 0 0xF4)) (fun t => (faultSeen t, t.reg 0)) =
    some ((.outOfBounds, true, 9), 1) := by decide
/-- S-2: SP wraps to 255. -/
theorem test_push_wraps : seen (step (bench 0 [0x45, 0x00] 0x55 0 0x00)) (fun t => (t.sp, t.mem.read 0xFF, t.pc)) =
    some (0xFF, 0x55, 2) := by decide
/-- S-3: PUSH of SP. -/
theorem test_push_sp : seen (step (bench 0 [0x45, 0x07] 0 0 0xF4)) (fun t => (t.sp, t.mem.read 0xF3)) = some (0xF3, 0xF3) := by decide
/-- S-6: SP wraps to 0. -/
theorem test_pop_wraps : seen (step (bench 0 [0x46, 0x00] 0 0 0xFF 0xFF 0x77)) (fun t => (t.reg 0, t.sp, t.mem.read 0xFF)) =
    some (0x77, 0x00, 0x77) := by decide
/-- S-7: POP into SP. -/
theorem test_pop_sp : seen (step (bench 0 [0x46, 0x07] 0 0 0xF4 0xF4 0x40)) (fun t => (t.sp, t.pc)) = some (0x41, 2) := by decide
/-- C-2: the return address is truncated. -/
theorem test_call_truncates : seen (step (bench 0xFE [0x50, 0x00] 0x20 0 0xF4 0xF3 0x99)) (fun t => (t.sp, t.mem.read 0xF3, t.pc)) =
    some (0xF3, 0x00, 0x20) := by decide
/-- C-3: CALL of SP. -/
theorem test_call_sp : seen (step (bench 0 [0x50, 0x07] 0 0 0xF4)) (fun t => (t.mem.read 0xF3, t.pc)) = some (0x02, 0xF3) := by decide
/-- R-1. -/
theorem test_ret : seen (step (bench 0 [0x11] 0 0 0xF3 0xF3 0x08)) (fun t => (t.pc, t.sp)) = some (8, 0xF4) := by decide
/-- R-2. -/
theorem test_ret_wraps : seen (step (bench 0 [0x11] 0 0 0xFF 0xFF 0x10)) (fun t => (t.pc, t.sp)) = some (0x10, 0x00) := by decide

/-! ## The ALU, the host's side, the port -/

/-- U-1. -/
theorem test_alu_unsupported : (match aluApply 0x47 0 1 State.reset with | .error f => f = .unsupportedOperation 0x47 | .ok _ => False) := rfl
/-- L1.1. -/
theorem test_load_image : loadImage [0x01] = .ok [(0, 0x01)] := rfl
theorem test_load_refuses_wide_value : loadImage [0x01, 256] = .error (.notACell 256) := rfl
theorem test_status_after_fault : (seen (step State.reset) State.statusOutputs) =
    some ⟨true, 2, 0, false, 0⟩ := by decide
theorem test_render : renderValue 42 = "42" := by decide
/-- R42: the fetch's reads, then PUSH's write. -/
theorem test_port_push : stepTransactions (bench 0 [0x45, 0x00] 5 0 0xF4) = [.read 0 0x45, .read 1 0x00, .write 0xF3 5] := by decide
/-- R38: with `rst` asserted no access is issued; without it the same state issues its own. -/
theorem test_port_reset : transactionsWithReset (some (Vector.replicate 8 0)) (bench 0 [0x01] 0 0 0xF4) = [] ∧
    transactionsWithReset none (bench 0 [0x01] 0 0 0xF4) = [.read 0 0x01] := by decide
/-- The size parameters meet R8's constraints (D21), and the nine opcode values are pairwise distinct. -/
theorem test_parameters : 1 ≤ Config.memSize ∧ Config.memSize ≤ 256 ∧ 1 ≤ Config.numRegs ∧ Config.numRegs ≤ 256 ∧
    spReset.toNat < 256 ∧ (opcodeTable.map Handler.opcode).Nodup := by decide

/-! ## Witnesses: states and operands that meet the hypotheses of each statement -/

theorem test_witness_EncodeOfDecode : decode [0xA0, 0xFF, 0x00, 0x11] = .ok (.add 0xFF 0x00, [0x11]) := rfl
theorem test_witness_ProgramCells : encodeProgram [.ret, .prn 8] = encodeProgram [.ret, .prn 8] := rfl
theorem test_witness_OtherOpcodes : (0xA3 : Byte).toNat ∉ [0x01, 0x82, 0x47, 0xA2, 0xA0, 0x45, 0x46, 0x50, 0x11] := by decide
theorem test_witness_CutInstruction : 2 < (Instr.ldi 0 1).size ∧ 0 < Instr.hlt.size := by decide
/-- At the last place a three-cell instruction fits. -/
theorem test_witness_StepRunsTheDecoded : (bench 253 [0x82, 0, 42] 0 0 0xF4).run = .running ∧
    decode (bench 253 [0x82, 0, 42] 0 0 0xF4).bytesAtPc = .ok (.ldi 0 42, []) := ⟨rfl, rfl⟩
theorem test_witness_OpcodeFetchPastMemory : (bench 256 [] 0 0 0).run = .running ∧ ¬ (bench 256 [] 0 0 0).pc < 256 ∧
    (bench 255 [0x01] 0 0 0).pc < 256 ∧ fetch (bench 255 [0x01] 0 0 0) = .ok .hlt := ⟨rfl, by decide, by decide, rfl⟩
theorem test_witness_FetchFault_missing : decode (bench 254 [0x82, 0] 0 0 0).bytesAtPc = .error (.missingCell 2) ∧
    decode (bench 256 [] 0 0 0).bytesAtPc = .error (.missingCell 0) := ⟨rfl, rfl⟩
theorem test_witness_FetchFault_invalid : decode (bench 255 [0xFF] 0 0 0).bytesAtPc = .error (.invalidOpcode 0xFF) := rfl
theorem test_witness_InstructionWritten : (bench 253 [] 0 0 0).run = .running ∧ (bench 253 [] 0 0 0).mem.wf = true ∧
    (bench 253 [] 0 0 0).pc + (Instr.ldi 0 1).size ≤ 256 := by decide
/-- Two states that differ in a register and in the cell after the instruction. -/
theorem test_witness_FetchReadsOnly : fetch (bench 4 [0x47, 2, 1] 0 0 0) = .ok (.prn 2) ∧
    (bench 4 [0x47, 2, 9] 8 0 0).pc = (bench 4 [0x47, 2, 1] 0 0 0).pc ∧
    ∀ k, k < (Instr.prn 2).size → (bench 4 [0x47, 2, 9] 8 0 0).mem.read (4 + k) = (bench 4 [0x47, 2, 1] 0 0 0).mem.read (4 + k) :=
  ⟨rfl, rfl, by decide⟩
theorem test_witness_LastCell : (bench 255 [0x01] 0 0 0).mem.read 255 = 0x01 ∧ (bench 255 [0x11] 0 0 0).mem.read 255 = 0x11 ∧
    (bench 255 [0x50] 0 0 0).mem.read 255 ∈ ([0x82, 0x47, 0xA2, 0xA0, 0x45, 0x46, 0x50] : List Byte) ∧
    (bench 255 [0x50] 0 0 0).run = .running ∧ (bench 255 [0x50] 0 0 0).pc = 255 := by decide
/-- The register operands of the result statements: the first, the last, and SP. -/
theorem test_witness_registers : (0x00 : Byte).toNat < Config.numRegs ∧ (0x07 : Byte).toNat < Config.numRegs ∧ (0x07 : Byte).toNat = 7 ∧
    (0x06 : Byte).toNat < Config.numRegs ∧ (0x06 : Byte).toNat ≠ 7 := by decide
theorem test_witness_missing_register : ¬ (0x08 : Byte).toNat < 8 ∧ ¬ (0xFF : Byte).toNat < 8 ∧ (0x07 : Byte).toNat < 8 := by decide
theorem test_witness_memory_bounds : ¬ 256 < 256 ∧ (255 : Nat) < 256 := by decide
theorem test_witness_LoadAndAluFrame : (∃ t, exec (.ldi 7 1) State.reset = .next t) ∧ (∃ t, exec (.mul 0 8) State.reset = .next t) ∧
    (∃ t, exec (.add 7 0) State.reset = .next t) ∧ (Instr.ldi 7 1).wellFormed = true ∧ (Instr.mul 0 8).wellFormed = false :=
  ⟨⟨_, rfl⟩, ⟨_, rfl⟩, ⟨_, rfl⟩, rfl, rfl⟩
theorem test_witness_HltAndPrnFrame : (∃ t, exec .hlt State.reset = .next t) ∧ (∃ t, exec (.prn 7) State.reset = .next t) ∧
    (∃ t, exec (.prn 8) State.reset = .next t) := ⟨⟨_, rfl⟩, ⟨_, rfl⟩, ⟨_, rfl⟩⟩
theorem test_witness_PushAndCallFrame : (∃ t, exec (.push 7) State.reset = .next t) ∧ (∃ t, exec (.call 7) State.reset = .next t) ∧
    (∃ t, exec (.push 8) State.reset = .next t) ∧ (∃ t, exec (.call 8) State.reset = .next t) :=
  ⟨⟨_, rfl⟩, ⟨_, rfl⟩, ⟨_, rfl⟩, ⟨_, rfl⟩⟩
theorem test_witness_PopAndRetFrame : (∃ t, exec (.pop 7) State.reset = .next t) ∧ (∃ t, exec (.pop 8) State.reset = .next t) ∧
    (∃ t, exec .ret State.reset = .next t) := ⟨⟨_, rfl⟩, ⟨_, rfl⟩, ⟨_, rfl⟩⟩
theorem test_witness_UnnamedRegister : (1 : RegIndex) ≠ spIndex ∧ namesRegister 1 (.add 0 2) = false ∧
    ∃ t, exec (.add 0 2) State.reset = .next t := ⟨by decide, rfl, _, rfl⟩
/-- A state that meets the invariant and steps; it meets the faults' clauses after the step. -/
theorem test_witness_StepKeepsInv : State.reset.Inv ∧ ∃ t, step State.reset = .next t ∧ t.haltReason.isFault = true := by
  refine ⟨by decide, _, rfl, rfl⟩
theorem test_witness_Start : ∃ s, start (Vector.replicate 8 0xAA) [0x01, 0xFF] = .ok s := ⟨_, rfl⟩
theorem test_witness_FaultsArePrecise : (bench 0 [0x45, 0x08] 0 0 0xF4).run = .running ∧
    (bench 0 [0x45, 0x08] 0 0 0xF4).haltReason.isFault = false ∧
    ∃ t, step (bench 0 [0x45, 0x08] 0 0 0xF4) = .next t ∧ t.haltReason.isFault = true := ⟨rfl, rfl, _, rfl, rfl⟩
theorem test_witness_OnlyHltOrAFault : (∃ t, step (bench 0 [0x01] 0 0 0) = .next t ∧ t.run = .halted ∧ t.haltReason = .hlt) ∧
    ∃ t, step (bench 0 [0x00] 0 0 0) = .next t ∧ t.run = .halted ∧ t.haltReason = .invalidOpcode :=
  ⟨⟨_, rfl, rfl, rfl⟩, ⟨_, rfl, rfl, rfl⟩⟩
theorem test_witness_Halted : ({ State.reset with run := .halted } : State).run = .halted := rfl
/-- One step of HLT ends the run; with no fuel it has not ended. -/
theorem test_witness_EndOfRun : (runUntilHalted 1 (bench 0 [0x01] 0 0 0)).isSome = true ∧ runUntilHalted 0 (bench 0 [0x01] 0 0 0) = none ∧
    (runUntilHalted 1 (bench 0 [0x01] 0 0 0)).map State.endedByHlt = some true := by decide
theorem test_witness_Unsupported : State.reset.haltReason ≠ .unsupportedOperation ∧ ∃ t, step State.reset = .next t :=
  ⟨by decide, _, rfl⟩
theorem test_witness_OnlyPrnEmits : ∃ t, step (bench 0 [0x47, 0x00] 9 0 0) = .next t ∧ t.out = [9] := ⟨_, rfl, rfl⟩
theorem test_witness_OnlyPushAndCallStore :
    (∃ t, step (bench 0 [0x45, 0x00] 9 0 0) = .next t ∧ t.mem.read 255 = 9 ∧ (bench 0 [0x45, 0x00] 9 0 0).mem.read 255 = 0) ∧
    ∃ t, step (bench 0 [0x50, 0x00] 9 0 0) = .next t ∧ t.mem.read 255 = 2 ∧ (bench 0 [0x50, 0x00] 9 0 0).mem.read 255 = 0 :=
  ⟨⟨_, rfl, by decide, by decide⟩, ⟨_, rfl, by decide, by decide⟩⟩
/-- The PC's four ways: a fault, the advance, RET, CALL. -/
theorem test_witness_PcAdvancesOrIsSet : (∃ t, step (bench 0 [0x00] 9 0 0) = .next t ∧ t.pc = 0) ∧
    (∃ t, step (bench 253 [0x82, 0, 0] 9 0 0) = .next t ∧ t.pc = 256) ∧
    (∃ t, step (bench 255 [0x11] 9 0 0xF4 0xF4 0x40) = .next t ∧ t.pc = 0x40) ∧
    ∃ t, step (bench 254 [0x50, 0x00] 0xFF 0 0xF4) = .next t ∧ t.pc = 255 :=
  ⟨⟨_, rfl, rfl⟩, ⟨_, rfl, rfl⟩, ⟨_, rfl, by decide⟩, ⟨_, rfl, by decide⟩⟩
theorem test_witness_AccessesThatReachMemory : fetch (bench 253 [0xA0, 0, 1] 0 0 0) = .ok (.add 0 1) := rfl
theorem test_witness_ReadReturns : loadImage [1, 2] = .ok [(0, 1), (1, 2)] ∧
    ∀ w ∈ [((255 : Nat), (7 : Byte)), (1, 0), (255, 8)], w.1 < 256 := ⟨rfl, by decide⟩
theorem test_witness_UncoveredCells : ∃ s, start (Vector.replicate 8 0) [0x01] = .ok s ∧ [0x01].length ≤ 1 := ⟨_, rfl, by decide⟩
theorem test_witness_Image : (List.replicate 256 255).length ≤ 256 ∧ (∀ v ∈ List.replicate 256 255, v < 256) ∧
    256 < (List.replicate 257 0).length ∧ [0, 256].length ≤ 256 ∧ ∃ v ∈ [0, 256], 256 ≤ v :=
  ⟨by rw [List.length_replicate], fun v hv => by rw [(List.mem_replicate.mp hv).2]; decide, by rw [List.length_replicate]; decide,
    by decide, 256, by decide, by decide⟩
/-- The longest stack the statement speaks of, and a short one with PUSH of SP. -/
theorem test_witness_Stack : State.reset.mem.wf = true ∧ (List.replicate 256 (0 : RegIndex)).length ≤ 256 ∧
    (∀ q ∈ List.replicate 256 (6 : RegIndex), q ≠ spIndex) ∧ 255 < (List.replicate 256 (6 : RegIndex)).length ∧
    [(7 : RegIndex), 1].length ≤ 256 ∧ (∀ q ∈ [(0 : RegIndex), 1], q ≠ spIndex) := by
  refine ⟨rfl, by rw [List.length_replicate], ?_, by rw [List.length_replicate]; decide, by decide, by decide⟩
  intro q hq
  rw [(List.mem_replicate.mp hq).2]
  decide
theorem test_witness_CallAndReturn : (bench 253 [0x50, 0x00] 9 0 0xF4).mem.wf = true ∧ (bench 253 [0x50, 0x00] 9 0 0xF4).pc ≤ 253 ∧
    ∃ t, exec (.call 0) (bench 253 [0x50, 0x00] 9 0 0xF4) = .next t ∧ t.regs[spIndex] = t.regs[spIndex] :=
  ⟨by decide, by decide, _, rfl, rfl⟩
theorem test_witness_AssertedReset :
    (∃ t, stepWithReset (some (Vector.replicate 8 0)) (bench 0 [0x45, 0x00] 9 0 0) = .next t ∧ t.mem.read 0 = 0x45) ∧
    ∃ t, stepWithReset none (bench 0 [0x45, 0x00] 9 0 0) = .next t ∧ t.mem.read 255 = 9 :=
  ⟨⟨_, rfl, by decide⟩, ⟨_, rfl, by decide⟩⟩
theorem test_witness_Status : State.reset.Inv ∧ ∀ t, step State.reset = .next t → t.Inv := by
  refine ⟨by decide, ?_⟩
  intro t h
  cases h
  decide

end Sys2Proof.Tests
end

/-! The statements about the state (spec/10_state.md). First what a committed working copy keeps, then the
invariant, missing registers, SP, registers that are not named, halting and output, the memory port, and the outputs. -/

namespace Sys2Proof.Machine

/-! ## The committed state: the working copy, with the PC advanced unless the instruction sets it (R82) -/

@[simp] theorem State.committed_regs (b : Bool) (u : State) (n : Nat) :
    (if b then u else u.advance n).regs = u.regs := by split <;> rfl
@[simp] theorem State.committed_run (b : Bool) (u : State) (n : Nat) :
    (if b then u else u.advance n).run = u.run := by split <;> rfl
@[simp] theorem State.committed_haltReason (b : Bool) (u : State) (n : Nat) :
    (if b then u else u.advance n).haltReason = u.haltReason := by split <;> rfl
@[simp] theorem State.committed_faultPc (b : Bool) (u : State) (n : Nat) :
    (if b then u else u.advance n).faultPc = u.faultPc := by split <;> rfl
@[simp] theorem State.committed_faultSpace (b : Bool) (u : State) (n : Nat) :
    (if b then u else u.advance n).faultSpace = u.faultSpace := by split <;> rfl
@[simp] theorem State.committed_faultValue (b : Bool) (u : State) (n : Nat) :
    (if b then u else u.advance n).faultValue = u.faultValue := by split <;> rfl
@[simp] theorem State.committed_out (b : Bool) (u : State) (n : Nat) :
    (if b then u else u.advance n).out = u.out := by split <;> rfl
@[simp] theorem State.committed_mem (b : Bool) (u : State) (n : Nat) :
    (if b then u else u.advance n).mem = u.mem := by split <;> rfl

/-! ## The invariant -/

/-- The faults a step of a block with its PC in range can raise: those the invariant's fault record can name. -/
def Fault.Possible : Fault → Prop
  | .invalidOpcode op => lookup op = none
  | .outOfBounds .mem addr => addr = Config.memSize
  | .outOfBounds .reg index => Config.numRegs ≤ index ∧ index < 256
  | .unsupportedOperation _ => False

theorem fetch_error_possible (s : State) (f : Fault) (hs : s.Inv) (e : fetch s = .error f) : f.Possible := by
  obtain ⟨-, hpc, -, -⟩ := hs
  rcases fetch_error s f e with ⟨addr, rfl, _, _, haddr⟩ | ⟨op, rfl, hop⟩
  · exact haddr hpc
  · exact hop

theorem effectOf_error_possible (i : Instr) (s : State) (f : Fault) (e : effectOf i s = .error f) : f.Possible := by
  obtain ⟨n, rfl, hn⟩ := effectOf_error i s f e
  exact hn

/-- Taking a possible fault writes a record that agrees with the halt reason. -/
theorem takeFault_recordAgrees (f : Fault) (s : State) (hf : f.Possible) : (takeFault f s).RecordAgrees := by
  cases f with
  | invalidOpcode op =>
    simp only [Fault.Possible] at hf
    simp [State.RecordAgrees, Fault.reason, Fault.spaceBit, Fault.value, HaltReason.isFault, hf, op.isLt]
  | outOfBounds space value =>
    cases space with
    | mem | reg =>
      simp only [Fault.Possible] at hf
      simp [State.RecordAgrees, Fault.reason, Fault.spaceBit, Fault.value, HaltReason.isFault, Space.bit, hf]
  | unsupportedOperation id => exact hf.elim

theorem Fault.reason_ne_none (f : Fault) : f.reason ≠ .none := by cases f <;> simp [Fault.reason]

theorem takeFault_inv (f : Fault) (s : State) (hs : s.Inv) (hf : f.Possible) : (takeFault f s).Inv := by
  obtain ⟨hmem, hpc, -, -⟩ := hs
  exact ⟨hmem, hpc, by simp [Fault.reason_ne_none], takeFault_recordAgrees f s hf⟩

/-- Where the halt reason is no fault's, the record agrees exactly when it is clear. -/
theorem State.recordAgrees_iff_clear (s : State) (h : s.haltReason.isFault = false) : s.RecordAgrees ↔ s.RecordClear := by
  cases hr : s.haltReason <;> simp_all [State.RecordAgrees, HaltReason.isFault]

/-- The PC an instruction that was fetched and ran leaves is in range: past the instruction's cells (R82), or an 8-bit
address (R120). -/
theorem committed_pc_le (i : Instr) (s u : State) (hf : fetch s = .ok i) (he : effectOf i s = .ok u) :
    (if i.setsPc then u else u.advance i.size).pc ≤ Config.memSize := by
  have hsize := fetch_ok_size s i hf
  rcases effectOf_ok i s u he with ⟨rfl, rfl⟩ | ⟨-, -, -, -, -, -, -, ⟨hpc, hset⟩ | ⟨rfl, hpc⟩ | ⟨a, rfl, hpc⟩⟩
  · exact hsize
  · simpa [hset, hpc] using hsize
  · exact hpc ▸ Nat.le_of_lt (byte_lt_memSize _)
  · exact Nat.le_of_lt hpc

/-- An effect that raises no fault keeps memory's canonical form. -/
theorem effectOf_ok_mem_wf (i : Instr) (s u : State) (hmem : s.mem.wf = true) (he : effectOf i s = .ok u) :
    u.mem.wf = true := by
  rcases effectOf_ok i s u he with ⟨-, rfl⟩ | ⟨-, -, -, -, -, hm | ⟨-, v, hm⟩, -, -⟩
  · exact hmem
  · rwa [hm]
  · rw [hm]; exact Memory.write_wf _ _ v hmem (byte_lt_memSize _)

/-- What an effect that raises no fault does to a running block's halt state: HLT sets it, nothing else touches it; the fault
record stays clear. -/
theorem effectOf_ok_haltState (i : Instr) (s u : State) (hs : s.Inv) (hr : s.run = .running) (he : effectOf i s = .ok u) :
    (u.haltReason = .none ↔ u.run = .running) ∧ u.haltReason.isFault = false ∧ u.RecordClear := by
  obtain ⟨-, -, hreason, hrecord⟩ := hs
  have hnone : s.haltReason = .none := hreason.mpr hr
  have hclear : s.RecordClear := (s.recordAgrees_iff_clear (by rw [hnone]; rfl)).mp hrecord
  rcases effectOf_ok i s u he with ⟨-, rfl⟩ | ⟨hrun, hhalt, hfpc, hfspace, hfvalue, -⟩
  · exact ⟨by simp, rfl, hclear⟩
  · refine ⟨by simp [hrun, hhalt, hnone, hr], by simp [hhalt, hnone, HaltReason.isFault], ?_⟩
    simpa [State.RecordClear, hfpc, hfspace, hfvalue] using hclear

theorem effectOf_ok_inv (i : Instr) (s u : State) (hs : s.Inv) (hr : s.run = .running) (hf : fetch s = .ok i)
    (he : effectOf i s = .ok u) : (if i.setsPc then u else u.advance i.size).Inv := by
  obtain ⟨hreason, hfault, hclear⟩ := effectOf_ok_haltState i s u hs hr he
  obtain ⟨hmem, -, -, -⟩ := hs
  refine ⟨?_, committed_pc_le i s u hf he, ?_, ?_⟩
  · simpa using effectOf_ok_mem_wf i s u hmem he
  · simpa using hreason
  · rw [State.recordAgrees_iff_clear _ (by simpa using hfault)]
    simpa [State.RecordClear] using hclear

/-- Settles O35: every fault a step can take is one the record may name, and an effect that raises none keeps each part of the
invariant. -/
theorem stepKeepsTheInvariant : Obligations.StepKeepsTheInvariant := by
  unfold Obligations.StepKeepsTheInvariant
  intro s t hs hstep
  rcases step_next s t hstep with
    ⟨-, rfl⟩ | ⟨-, f, hf, rfl⟩ | ⟨-, i, -, f, he, rfl⟩ | ⟨hr, i, hf, u, he, rfl⟩
  · exact hs
  · exact takeFault_inv f s hs (fetch_error_possible s f hs hf)
  · exact takeFault_inv f s hs (effectOf_error_possible i s f he)
  · exact effectOf_ok_inv i s u hs hr hf he

/-! ## An instruction's answer, from its effect -/

theorem exec_of_effect_error {i : Instr} {s : State} {f : Fault} (he : effectOf i s = .error f) :
    exec i s = .next (takeFault f s) := by rw [exec_eq_finish, he, finish_error]

theorem exec_of_effect_ok {i : Instr} {s u : State} (he : effectOf i s = .ok u) :
    exec i s = .next (if i.setsPc then u else u.advance i.size) := by rw [exec_eq_finish, he, finish_ok]

/-! The answer of PUSH, POP and CALL, whose register exists or does not (R110, R112, R121). -/

theorem effectOf_push_ok (a : Byte) (s : State) (h : a.toNat < Config.numRegs) :
    effectOf (.push a) s = .ok (s.decSp.setMem (s.mem.write (s.sp - 1).toNat (s.decSp.reg ⟨a.toNat, h⟩))) := by
  rw [effectOf, pushEffect_eq, dif_pos h]

theorem effectOf_push_missing (a : Byte) (s : State) (h : ¬ a.toNat < Config.numRegs) :
    effectOf (.push a) s = .error (.outOfBounds .reg a.toNat) := by rw [effectOf, pushEffect_eq, dif_neg h]

theorem effectOf_pop_ok (a : Byte) (s : State) (h : a.toNat < Config.numRegs) :
    effectOf (.pop a) s = .ok (s.setReg ⟨a.toNat, h⟩ (s.mem.read s.sp.toNat)).incSp := by
  rw [effectOf, popEffect_eq, dif_pos h]

theorem effectOf_pop_missing (a : Byte) (s : State) (h : ¬ a.toNat < Config.numRegs) :
    effectOf (.pop a) s = .error (.outOfBounds .reg a.toNat) := by rw [effectOf, popEffect_eq, dif_neg h]

theorem effectOf_call_ok (a : Byte) (s : State) (h : a.toNat < Config.numRegs) :
    effectOf (.call a) s =
      .ok ((s.decSp.setMem (s.mem.write (s.sp - 1).toNat (trunc (s.pc + 2)))).setPc (s.decSp.reg ⟨a.toNat, h⟩).toNat) := by
  rw [effectOf, callEffect_eq, dif_pos h]

theorem effectOf_call_missing (a : Byte) (s : State) (h : ¬ a.toNat < Config.numRegs) :
    effectOf (.call a) s = .error (.outOfBounds .reg a.toNat) := by rw [effectOf, callEffect_eq, dif_neg h]

/-- MUL and ADD read their first operand first (R134), so it is the one reported. -/
theorem aluApply_missing_first (op a b : Byte) (s : State) (h : ¬ a.toNat < Config.numRegs) :
    aluApply op a b s = .error (.outOfBounds .reg a.toNat) := by rw [aluApply_eq, dif_neg h]

theorem aluApply_missing_second (op a b : Byte) (s : State) (ha : a.toNat < Config.numRegs) (hb : ¬ b.toNat < Config.numRegs) :
    aluApply op a b s = .error (.outOfBounds .reg b.toNat) := by rw [aluApply_eq, dif_pos ha, dif_neg hb]

/-- Settles O25: each effect that accesses a missing register is that register's fault, which the end of the step takes. -/
theorem missingRegisterFaults : Obligations.MissingRegisterFaults := by
  unfold Obligations.MissingRegisterFaults
  intro i s hi
  refine ⟨readReg_error i s hi, fun v => writeReg_error i v s hi, fun b => ?ldi, ?prn, fun b => ?mul, fun b => ?add,
    fun a ha => ?mulSecond, fun a ha => ?addSecond, ?push, ?pop, ?call⟩ <;> apply exec_of_effect_error
  case ldi => exact writeReg_error i _ s hi
  case prn => rw [effectOf, prnEffect_eq, dif_neg hi]
  case mul => exact aluApply_missing_first opcMul i b s hi
  case add => exact aluApply_missing_first opcAdd i b s hi
  case mulSecond => exact aluApply_missing_second opcMul a i s ha hi
  case addSecond => exact aluApply_missing_second opcAdd a i s ha hi
  case push => exact effectOf_push_missing i s hi
  case pop => exact effectOf_pop_missing i s hi
  case call => exact effectOf_call_missing i s hi

/-! ## The stack pointer after PUSH, CALL, POP and RET -/

theorem State.decSp_sp_toNat (s : State) : s.decSp.sp.toNat = (s.sp.toNat + 255) % 256 := by
  rw [State.decSp_sp]; bv_omega

theorem State.incSp_sp_toNat (s : State) : s.incSp.sp.toNat = (s.sp.toNat + 1) % 256 := by
  rw [State.incSp_sp]; bv_omega

/-- SP after a register is set, whichever it is. -/
theorem State.setReg_sp (s : State) (r : RegIndex) (v : Byte) : (s.setReg r v).sp = if r = spIndex then v else s.sp := by
  simp only [State.sp, State.setReg_reg, eq_comm]

/-- POP's increment reads SP after the register write, which may have been to SP (R112). -/
theorem State.setReg_incSp_sp_toNat (s : State) (r : RegIndex) (v : Byte) :
    (s.setReg r v).incSp.sp.toNat = ((if r = spIndex then v else s.sp).toNat + 1) % 256 := by
  rw [State.incSp_sp_toNat, State.setReg_sp]

/-- What an instruction leaves in SP is what its effect left there: the end of the step touches no register. -/
theorem exec_sp_of_effect_ok {i : Instr} {s u : State} {n : Nat} (he : effectOf i s = .ok u) (hsp : u.sp.toNat = n) :
    ∃ t, exec i s = .next t ∧ t.regs[spIndex].toNat = n :=
  ⟨_, exec_of_effect_ok he, by rw [State.committed_regs]; exact hsp⟩

/-- Settles O24: a register write truncates, and SP after each of the four stack effects is `decSp`'s or `incSp`'s; POP's
increment reads SP after its own register write. -/
theorem registerWritesWrap : Obligations.RegisterWritesWrap := by
  unfold Obligations.RegisterWritesWrap
  refine ⟨fun a v s h => ⟨_, writeReg_ok a v s h, ?write⟩, fun a s h => ⟨?push, ?call, fun h7 => ?pop, fun h7 => ?popSp⟩,
    fun s => ?ret⟩
  case write => simp [trunc_toNat_eq]
  case push => exact exec_sp_of_effect_ok (effectOf_push_ok a s h) s.decSp_sp_toNat
  case call => exact exec_sp_of_effect_ok (effectOf_call_ok a s h) s.decSp_sp_toNat
  case pop =>
    have hne : (⟨a.toNat, h⟩ : RegIndex) ≠ spIndex := fun e => h7 (congrArg Fin.val e)
    exact exec_sp_of_effect_ok (effectOf_pop_ok a s h) (by rw [State.setReg_incSp_sp_toNat, if_neg hne]; rfl)
  case popSp =>
    have heq : (⟨a.toNat, h⟩ : RegIndex) = spIndex := Fin.ext h7
    exact exec_sp_of_effect_ok (effectOf_pop_ok a s h) (by rw [State.setReg_incSp_sp_toNat, if_pos heq]; rfl)
  case ret => exact exec_sp_of_effect_ok (retEffect_eq s) s.incSp_sp_toNat

/-! ## A register that is not named -/

theorem State.setReg_comm (s : State) (r q : RegIndex) (v w : Byte) (h : r ≠ q) :
    (s.setReg r v).setReg q w = (s.setReg q w).setReg r v := by
  have hv : r.val ≠ q.val := fun e => h (Fin.ext e)
  simp only [State.setReg, State.mk.injEq, and_true]
  exact Vector.set_comm v w hv

theorem State.setReg_sp_ne (s : State) (r : RegIndex) (v : Byte) (h : r ≠ spIndex) : (s.setReg r v).sp = s.sp := by
  rw [State.setReg_sp, if_neg h]

theorem State.decSp_setReg (s : State) (r : RegIndex) (v : Byte) (h : r ≠ spIndex) :
    (s.setReg r v).decSp = s.decSp.setReg r v := by
  rw [State.decSp, State.setReg_sp_ne s r v h, State.setReg_comm s r spIndex v _ h, ← State.decSp]

theorem State.incSp_setReg (s : State) (r : RegIndex) (v : Byte) (h : r ≠ spIndex) :
    (s.setReg r v).incSp = s.incSp.setReg r v := by
  rw [State.incSp, State.setReg_sp_ne s r v h, State.setReg_comm s r spIndex v _ h, ← State.incSp]

theorem readReg_setReg (a : Byte) (s : State) (r : RegIndex) (v : Byte) (h : a.toNat ≠ r.val) :
    readReg a (s.setReg r v) = readReg a s := by
  unfold readReg
  split
  · rw [State.setReg_reg_ne s r _ v (fun e => h (congrArg Fin.val e))]
  · rfl

theorem writeReg_setReg (a : Byte) (w : Nat) (s : State) (r : RegIndex) (v : Byte) (h : a.toNat ≠ r.val) :
    writeReg a w (s.setReg r v) = (writeReg a w s).map (·.setReg r v) := by
  unfold writeReg
  split
  · rw [State.setReg_comm s r _ v _ (fun e => h (congrArg Fin.val e).symm)]; rfl
  · rfl

theorem memRead_setReg (addr : Nat) (s : State) (r : RegIndex) (v : Byte) : memRead addr (s.setReg r v) = memRead addr s := rfl

theorem memWrite_setReg (addr w : Nat) (s : State) (r : RegIndex) (v : Byte) :
    memWrite addr w (s.setReg r v) = (memWrite addr w s).map (·.setReg r v) := by
  unfold memWrite; split <;> rfl

/-- The ALU neither reads nor writes a register that is not its operand. -/
theorem aluApply_setReg (op a b : Byte) (s : State) (r : RegIndex) (v : Byte) (ha : a.toNat ≠ r.val) (hb : b.toNat ≠ r.val) :
    aluApply op a b (s.setReg r v) = (aluApply op a b s).map (·.setReg r v) := by
  unfold aluApply
  rw [readReg_setReg a s r v ha, readReg_setReg b s r v hb]
  cases readReg a s with
  | error f => rfl
  | ok x =>
    cases readReg b s with
    | error f => rfl
    | ok y =>
      simp only [bind, Except.bind, writeReg_setReg a _ s r v ha]
      split
      · rfl
      · split <;> rfl

/-- An effect does the same with another value in a register that it does not name and that is not SP. -/
theorem effectOf_setReg (i : Instr) (s : State) (r : RegIndex) (v : Byte) (hsp : r ≠ spIndex)
    (hn : namesRegister r i = false) : effectOf i (s.setReg r v) = (effectOf i s).map (·.setReg r v) := by
  cases i with
  | hlt => rfl
  | ldi a b =>
    have ha : a.toNat ≠ r.val := by simpa [namesRegister] using hn
    exact writeReg_setReg a _ s r v ha
  | prn a =>
    have ha : a.toNat ≠ r.val := by simpa [namesRegister] using hn
    simp only [effectOf, prnEffect, readReg_setReg a s r v ha]
    cases readReg a s <;> rfl
  | mul a b =>
    have hab : a.toNat ≠ r.val ∧ b.toNat ≠ r.val := by simpa [namesRegister] using hn
    exact aluApply_setReg opcMul a b s r v hab.1 hab.2
  | add a b =>
    have hab : a.toNat ≠ r.val ∧ b.toNat ≠ r.val := by simpa [namesRegister] using hn
    exact aluApply_setReg opcAdd a b s r v hab.1 hab.2
  | push a =>
    have ha : a.toNat ≠ r.val := by simpa [namesRegister] using hn
    simp only [effectOf, pushEffect, State.decSp_setReg s r v hsp, readReg_setReg a _ r v ha, memWrite_setReg,
      State.setReg_sp_ne _ r v hsp]
    cases readReg a s.decSp <;> rfl
  | pop a =>
    have ha : a.toNat ≠ r.val := by simpa [namesRegister] using hn
    simp only [effectOf, popEffect, State.setReg_sp_ne s r v hsp, memRead_setReg, memRead_byte, bind, Except.bind,
      writeReg_setReg a _ s r v ha]
    cases writeReg a _ s with
    | error f => rfl
    | ok u => exact congrArg Except.ok (State.incSp_setReg u r v hsp)
  | call a =>
    have ha : a.toNat ≠ r.val := by simpa [namesRegister] using hn
    simp only [effectOf, callEffect, State.decSp_setReg s r v hsp, memWrite_setReg, State.setReg_sp_ne _ r v hsp,
      memWrite_byte, bind, Except.bind, Except.map, readReg_setReg a _ r v ha, State.setReg_pc]
    cases readReg a _ <;> rfl
  | ret =>
    simp only [effectOf, retEffect_eq, State.setReg_sp_ne s r v hsp, State.incSp_setReg s r v hsp]
    rfl

/-- The end of a step keeps whatever value such a register has. -/
theorem finish_setReg (i : Instr) (e : Except Fault State) (s t : State) (r : RegIndex) (v : Byte)
    (h : finish i e s = .next t) : finish i (e.map (·.setReg r v)) (s.setReg r v) = .next (t.setReg r v) := by
  rcases finish_next i e s t h with ⟨f, rfl, rfl⟩ | ⟨u, rfl, rfl⟩
  · rfl
  · simp only [Except.map, finish_ok]; split <;> rfl

/-- Settles O33: executing commutes with setting the register, in the effect and at the end of the step. -/
theorem unnamedRegisterHasNoInfluence : Obligations.UnnamedRegisterHasNoInfluence := by
  unfold Obligations.UnnamedRegisterHasNoInfluence
  intro i r v s t hsp hn h
  change exec i (s.setReg r v) = .next (t.setReg r v)
  rw [exec_eq_finish] at h ⊢
  rw [effectOf_setReg i s r v hsp hn]
  exact finish_setReg i _ s t r v h

/-! ## Halting and output -/

theorem Fault.reason_isFault (f : Fault) : f.reason.isFault = true := by cases f <;> rfl

/-- Settles O39: a fault taken leaves its own reason, and of the effects that raise none only HLT's changes the run state. -/
theorem onlyHltOrAFaultHalts : Obligations.OnlyHltOrAFaultHalts := by
  unfold Obligations.OnlyHltOrAFaultHalts
  intro s t hr hstep ht
  rcases step_next s t hstep with
    ⟨hh, -⟩ | ⟨-, f, -, rfl⟩ | ⟨-, i, -, f, -, rfl⟩ | ⟨-, i, hf, u, he, rfl⟩
  · simp [hr] at hh
  · exact .inr f.reason_isFault
  · exact .inr f.reason_isFault
  · rcases effectOf_ok i s u he with ⟨rfl, rfl⟩ | ⟨hrun, -⟩
    · exact .inl ⟨hf, rfl⟩
    · simp [hrun, hr] at ht

/-- Settles O44: neither a fault taken nor the end of a step touches the output, and of the effects only PRN's does. -/
theorem onlyPrnEmits : Obligations.OnlyPrnEmits := by
  unfold Obligations.OnlyPrnEmits
  intro s t hstep
  rcases step_next s t hstep with
    ⟨-, rfl⟩ | ⟨-, f, -, rfl⟩ | ⟨-, i, -, f, -, rfl⟩ | ⟨hr, i, hf, u, he, rfl⟩
  · exact .inl rfl
  · exact .inl rfl
  · exact .inl rfl
  · rw [State.committed_out]
    rcases effectOf_ok i s u he with ⟨-, rfl⟩ | ⟨-, -, -, -, -, -, hout | ⟨a, ha, rfl, hout⟩, -⟩
    · exact .inl rfl
    · exact .inl hout
    · exact .inr ⟨a, ha, hr, hf, hout⟩

/-! ## The memory port -/

/-- A read that an instruction's size may or may not call for changes nothing. -/
theorem Memory.after_ite_portRead (m : Memory) (p : Prop) [Decidable p] (addr : Nat) (s : State) :
    m.after (if p then portRead addr s else []) = m := by
  split
  · exact Memory.after_portRead m addr s
  · rfl

/-- A fetch issues reads only. -/
theorem Memory.after_fetchTransactions (m : Memory) (s : State) : m.after (fetchTransactions s) = m := by
  unfold fetchTransactions
  rw [Memory.after_append, Memory.after_portRead]
  split
  · rfl
  · split
    · rfl
    · rw [Memory.after_append, Memory.after_ite_portRead, Memory.after_ite_portRead]

theorem dataTransactions_push_ok (a : Byte) (s : State) (h : a.toNat < Config.numRegs) :
    dataTransactions (.push a) s = [.write (s.sp - 1) (s.decSp.reg ⟨a.toNat, h⟩)] := by
  simp only [dataTransactions, readReg_ok a _ h, portWrite_byte, State.decSp_sp]

theorem dataTransactions_push_missing (a : Byte) (s : State) (h : ¬ a.toNat < Config.numRegs) :
    dataTransactions (.push a) s = [] := by simp only [dataTransactions, readReg_error a _ h]

theorem dataTransactions_call_ok (a : Byte) (s : State) (h : a.toNat < Config.numRegs) :
    dataTransactions (.call a) s = [.write (s.sp - 1) (trunc (s.pc + 2))] := by
  simp only [dataTransactions, readReg_ok a _ h, portWrite_byte, State.decSp_sp]

theorem dataTransactions_call_missing (a : Byte) (s : State) (h : ¬ a.toNat < Config.numRegs) :
    dataTransactions (.call a) s = [] := by simp only [dataTransactions, readReg_error a _ h]

/-- No instruction but PUSH and CALL issues a write (R42). -/
theorem Memory.after_dataTransactions_of_no_store (m : Memory) (i : Instr) (s : State) (hi : ∀ a, i ≠ .push a ∧ i ≠ .call a) :
    m.after (dataTransactions i s) = m := by
  cases i with
  | hlt | ldi _ _ | prn _ | mul _ _ | add _ _ => rfl
  | pop _ | ret => exact Memory.after_portRead m _ s
  | push a => exact absurd rfl (hi a).1
  | call a => exact absurd rfl (hi a).2

/-- No instruction but PUSH and CALL changes memory (R42). -/
theorem exec_mem_of_no_store (i : Instr) (s t : State) (hi : ∀ a, i ≠ .push a ∧ i ≠ .call a) (h : exec i s = .next t) :
    t.mem = s.mem := by
  rcases exec_next i s t h with ⟨f, -, rfl⟩ | ⟨u, he, rfl⟩
  · rfl
  · rw [State.committed_mem]
    rcases effectOf_ok i s u he with ⟨-, rfl⟩ | ⟨-, -, -, -, -, hmem | ⟨⟨a, hpush | hcall⟩, -⟩, -, -⟩
    · rfl
    · exact hmem
    · exact absurd hpush (hi a).1
    · exact absurd hcall (hi a).2

/-- An instruction leaves memory as its own transactions do; one that faults issues no write (R14). -/
theorem exec_mem (i : Instr) (s t : State) (h : exec i s = .next t) : t.mem = s.mem.after (dataTransactions i s) := by
  cases i with
  | push a =>
    by_cases ha : a.toNat < Config.numRegs
    · rw [exec_of_effect_ok (effectOf_push_ok a s ha)] at h
      cases h
      rw [dataTransactions_push_ok a s ha]; rfl
    · rw [exec_of_effect_error (effectOf_push_missing a s ha)] at h
      cases h
      rw [dataTransactions_push_missing a s ha]; rfl
  | call a =>
    by_cases ha : a.toNat < Config.numRegs
    · rw [exec_of_effect_ok (effectOf_call_ok a s ha)] at h
      cases h
      rw [dataTransactions_call_ok a s ha]; rfl
    · rw [exec_of_effect_error (effectOf_call_missing a s ha)] at h
      cases h
      rw [dataTransactions_call_missing a s ha]; rfl
  | hlt | ldi _ _ | prn _ | mul _ _ | add _ _ | pop _ | ret =>
    rw [Memory.after_dataTransactions_of_no_store _ _ s (by simp)]
    exact exec_mem_of_no_store _ s t (by simp) h

theorem stepTransactions_halted (s : State) (h : s.run = .halted) : stepTransactions s = [] := by
  simp [stepTransactions, h]

theorem stepTransactions_running_error (s : State) (f : Fault) (h : s.run = .running) (e : fetch s = .error f) :
    stepTransactions s = fetchTransactions s := by simp [stepTransactions, h, e]

theorem stepTransactions_running_ok (s : State) (i : Instr) (h : s.run = .running) (e : fetch s = .ok i) :
    stepTransactions s = fetchTransactions s ++ dataTransactions i s := by simp [stepTransactions, h, e]

/-- Memory after a step is memory before with the step's transactions applied in order (R37, R54). -/
theorem step_mem (s t : State) (hstep : step s = .next t) : t.mem = s.mem.after (stepTransactions s) := by
  cases hr : s.run with
  | halted =>
    rw [step_halted s hr] at hstep
    cases hstep
    rw [stepTransactions_halted s hr]; rfl
  | running =>
    cases hf : fetch s with
    | error f =>
      rw [step_running_error s f hr hf] at hstep
      cases hstep
      rw [stepTransactions_running_error s f hr hf, Memory.after_fetchTransactions]; rfl
    | ok i =>
      rw [step_running_ok s i hr hf] at hstep
      rw [stepTransactions_running_ok s i hr hf, Memory.after_append, Memory.after_fetchTransactions]
      exact exec_mem i s t hstep

/-- Settles O48: `step_mem`, with PUSH and CALL of a missing register issuing nothing. -/
theorem portTransactionsAccountForMemory : Obligations.PortTransactionsAccountForMemory := by
  unfold Obligations.PortTransactionsAccountForMemory
  exact ⟨step_mem, fun a s h => ⟨dataTransactions_push_missing a s h, dataTransactions_call_missing a s h⟩⟩

/-! ## Reset and outputs -/

/-- Settles O57: the reset input keeps memory and issues nothing; without it the step's transactions account for memory. -/
theorem assertedResetIssuesNoMemoryAccess : Obligations.AssertedResetIssuesNoMemoryAccess := by
  unfold Obligations.AssertedResetIssuesNoMemoryAccess
  refine ⟨transactionsWithReset_some, fun rst s t h => ?_⟩
  cases rst with
  | some draw =>
    rw [stepWithReset_some] at h
    cases h
    rfl
  | none => exact step_mem s t h

/-- The invariant bounds the fault record by its 9-bit outputs (R38). -/
theorem State.Inv.record_lt {s : State} (hs : s.Inv) : s.faultPc < 2 ^ 9 ∧ s.faultValue < 2 ^ 9 := by
  obtain ⟨-, hpc, -, hclear, hinvalid, hbounds, hunsupported⟩ := hs
  rw [Config.memSize] at hpc
  cases hr : s.haltReason with
  | none | hlt =>
    obtain ⟨hfpc, -, hfvalue⟩ := hclear (by rw [hr]; rfl)
    omega
  | invalidOpcode =>
    obtain ⟨hfpc, -, hfvalue, -⟩ := hinvalid hr
    omega
  | outOfBounds =>
    obtain ⟨hfpc, ⟨-, -, hfvalue⟩ | ⟨-, hfvalue⟩⟩ := hbounds hr
    · omega
    · rw [Config.memSize] at hfvalue
      omega
  | unsupportedOperation => exact absurd hr hunsupported

theorem HaltReason.code_eq_zero_iff (r : HaltReason) : r.code = 0 ↔ r = .none := by cases r <;> decide

theorem RunState.halted_iff_ne_running (r : RunState) : r = .halted ↔ r ≠ .running := by cases r <;> decide

/-- Settles O56: the invariant bounds the fault record and ties the halt reason to the run state. -/
theorem statusOutputsCarryTheState : Obligations.StatusOutputsCarryTheState := by
  unfold Obligations.StatusOutputsCarryTheState
  refine ⟨fun s hs => ?_, rfl, rfl, rfl, rfl, rfl⟩
  obtain ⟨hfpc, hfvalue⟩ := hs.record_lt
  obtain ⟨-, -, hreason, -⟩ := hs
  have hhalted : s.statusOutputs.halted = true ↔ s.run = .halted := decide_eq_true_iff
  refine ⟨Nat.mod_eq_of_lt hfpc, Nat.mod_eq_of_lt hfvalue, rfl, hhalted, ?_⟩
  calc s.statusOutputs.halted = true
    _ ↔ s.run ≠ .running := hhalted.trans (RunState.halted_iff_ne_running s.run)
    _ ↔ s.haltReason ≠ .none := hreason.not.symm
    _ ↔ s.statusOutputs.haltReason ≠ 0 := (HaltReason.code_eq_zero_iff s.haltReason).not.symm

/-- Settles O54: reset's PC is a constant of the model. -/
theorem resetSetsThePcToZero : Obligations.ResetSetsThePcToZero := by
  unfold Obligations.ResetSetsThePcToZero
  exact ⟨rfl, fun _ _ => rfl⟩

end Sys2Proof.Machine

/-! The statements about memory (spec/20_memory.md). First the decoder over the cells of an instruction, then the fetch,
loading an image, a sequence of writes, and the bound check. -/

namespace Sys2Proof

/-- A reader that gives the cells of an instruction, in order, decodes to that instruction (R60, R63). -/
theorem decodeAt_of_cells {ε : Type} (read : Nat → Except ε Byte) (invalid : Byte → ε) (pc : Nat) (i : Instr)
    (hread : ∀ (k : Nat) (hk : k < (encode i).length), read (pc + k) = .ok (encode i)[k]) :
    decodeAt read invalid pc = .ok i := by
  cases i with
  | hlt | ret =>
    have h0 := hread 0 (by simp [encode])
    rw [Nat.add_zero] at h0
    simp only [decodeAt, h0]
    rfl
  | prn _ | push _ | pop _ | call _ =>
    have h0 := hread 0 (by simp [encode])
    have h1 := hread 1 (by simp [encode])
    rw [Nat.add_zero] at h0
    simp only [decodeAt, h0, h1]
    rfl
  | ldi _ _ | mul _ _ | add _ _ =>
    have h0 := hread 0 (by simp [encode])
    have h1 := hread 1 (by simp [encode])
    have h2 := hread 2 (by simp [encode])
    rw [Nat.add_zero] at h0
    simp only [decodeAt, h0, h1, h2]
    rfl

/-- The encoding has as many cells as the instruction's size (R60). -/
@[simp] theorem length_encode (i : Instr) : (encode i).length = i.size := by cases i <;> rfl

end Sys2Proof

namespace Sys2Proof.Machine

/-! ## The fetch -/

/-- An instruction whose cells stand at the PC is fetched. -/
theorem fetch_of_cells (s : State) (i : Instr) (hsize : s.pc + i.size ≤ Config.memSize)
    (hcells : ∀ (k : Nat) (hk : k < (encode i).length), s.mem.read (s.pc + k) = (encode i)[k]) : fetch s = .ok i := by
  refine decodeAt_of_cells _ _ _ _ fun k hk => ?_
  have hlen := length_encode i
  rw [memRead_ok _ s (by omega), hcells k hk]

/-- Settles O10: the cells written are read back, so the fetch answers the instruction. -/
theorem instructionWrittenAtPcRuns : Obligations.InstructionWrittenAtPcRuns := by
  unfold Obligations.InstructionWrittenAtPcRuns
  intro s i hr hm hsize
  refine step_running_ok _ i hr (fetch_of_cells _ i hsize fun k hk => ?_)
  exact Memory.read_writeCells_inside s.mem s.pc k (encode i) hm hk (by simpa using hsize)

theorem memRead_eq_ok_iff (addr : Nat) (s : State) (v : Byte) :
    memRead addr s = .ok v ↔ addr < Config.memSize ∧ s.mem.read addr = v := by
  unfold memRead
  split <;> simp [*]

theorem portRead_ok (addr : Nat) (s : State) (h : addr < Config.memSize) :
    portRead addr s = [.read (trunc addr) (s.mem.read addr)] := if_pos h

/-- The reads of a fetch whose opcode is a row's (R61, R63). -/
theorem fetchTransactions_of_lookup (s : State) (h : Handler) (hpc : s.pc < Config.memSize)
    (hl : lookup (s.mem.read s.pc) = some h) :
    fetchTransactions s = portRead s.pc s ++
      ((if 2 ≤ h.size then portRead (s.pc + 1) s else []) ++ (if h.size = 3 then portRead (s.pc + 2) s else [])) := by
  simp only [fetchTransactions, memRead_ok s.pc s hpc, hl]

/-- A fetch that answers an instruction reads its cells in address order and nothing else (R42). -/
theorem fetchTransactions_of_fetch_ok (s : State) (i : Instr) (e : fetch s = .ok i) :
    fetchTransactions s =
      (List.range i.size).map (fun k => Transaction.read (trunc (s.pc + k)) (s.mem.read (s.pc + k))) := by
  have hsize := fetch_ok_size s i e
  obtain ⟨op, h, a, b, hop, hl, rfl, -, -⟩ := decodeAt_ok _ _ _ _ e
  obtain ⟨hpc, rfl⟩ := (memRead_eq_ok_iff s.pc s op).mp hop
  rw [lookup_size _ h a b hl] at hsize ⊢
  rw [fetchTransactions_of_lookup s h hpc hl, portRead_ok s.pc s hpc]
  rcases lookup_size_cases _ h hl with hs | hs | hs <;> rw [hs] at hsize ⊢
  · rfl
  · rw [if_pos (by omega), if_neg (by omega), portRead_ok _ s (by omega)]; rfl
  · rw [if_pos (by omega), if_pos rfl, portRead_ok _ s (by omega), portRead_ok _ s (by omega)]; rfl

/-- A register by its operand cell's value, as PUSH reads it after SP's update (R110). -/
theorem State.decSp_reg_operand (a : Byte) (s : State) (h : a.toNat < Config.numRegs) :
    s.decSp.reg ⟨a.toNat, h⟩ = if a.toNat = 7 then s.regs[spIndex] - 1 else s.regs[a.toNat] := by
  simp only [State.decSp_reg, Fin.ext_iff]
  rfl

/-- Settles O47: the fetch reads the instruction's cells; the data accesses are those of each instruction's own lines, whose
addresses are SP's values and so always exist. -/
theorem accessesThatReachMemory : Obligations.AccessesThatReachMemory := by
  unfold Obligations.AccessesThatReachMemory
  refine ⟨fetchTransactions_of_fetch_ok, fun a s h => ⟨?push, dataTransactions_call_ok a s h⟩,
    fun a s => portRead_byte s.sp s, fun s => portRead_byte s.sp s, fun a b s => ⟨rfl, rfl, rfl, rfl, rfl⟩⟩
  case push => rw [dataTransactions_push_ok a s h, State.decSp_reg_operand]; rfl

/-! ## What a step does to memory -/

/-- Settles O45: neither a fault taken nor the end of a step touches memory, and of the effects only PUSH's and CALL's do, in one
cell. -/
theorem onlyPushAndCallStore : Obligations.OnlyPushAndCallStore := by
  unfold Obligations.OnlyPushAndCallStore
  intro s t addr hstep hne
  rcases step_next s t hstep with
    ⟨-, rfl⟩ | ⟨-, f, -, rfl⟩ | ⟨-, i, -, f, -, rfl⟩ | ⟨hr, i, hf, u, he, rfl⟩
  · exact absurd rfl hne
  · exact absurd rfl hne
  · exact absurd rfl hne
  · rw [State.committed_mem] at hne
    rcases effectOf_ok i s u he with ⟨-, rfl⟩ | ⟨-, -, -, -, -, hmem | ⟨⟨a, hi⟩, v, hmem⟩, -, -⟩
    · exact absurd rfl hne
    · exact absurd (congrArg (·.read addr) hmem) hne
    · have haddr : addr = (s.sp - 1).toNat := by
        by_contra h
        exact hne (by rw [hmem, Memory.read_write_ne s.mem _ addr v h])
      refine ⟨hr, haddr, a, ?_⟩
      rcases hi with rfl | rfl
      · exact .inl hf
      · exact .inr hf

/-! ## The bound check -/

/-- No instruction's own access goes past memory: its addresses are SP's values, so its only fault is a missing register. -/
theorem exec_no_memory_fault (i : Instr) (s t : State) (hs : s.haltReason = .none) (h : exec i s = .next t) :
    ¬ (t.haltReason = .outOfBounds ∧ t.faultSpace = false) := by
  rintro ⟨hreason, hspace⟩
  rcases exec_next i s t h with ⟨f, he, rfl⟩ | ⟨u, he, rfl⟩
  · obtain ⟨n, rfl, -⟩ := effectOf_error i s f he
    cases hspace
  · rw [State.committed_haltReason] at hreason
    rcases effectOf_ok i s u he with ⟨-, rfl⟩ | ⟨-, hhalt, -⟩
    · cases hreason
    · rw [hhalt, hs] at hreason
      cases hreason

/-- Settles O26: the bound check is `memRead`'s and `memWrite`'s own, and the first cell a fetch can miss is the one at 256. -/
theorem memoryAccessOutOfBoundsFaults : Obligations.MemoryAccessOutOfBoundsFaults := by
  unfold Obligations.MemoryAccessOutOfBoundsFaults
  refine fun addr s => ⟨fun h => ⟨memRead_error addr s h, fun v => memWrite_error addr v s h⟩,
    fun h => ⟨memRead_ok addr s h, fun v => memWrite_ok addr v s h⟩, fun i t => exec_no_memory_fault i s t,
    fun f hpc e => ?fetch⟩
  case fetch =>
    rcases fetch_error s f e with ⟨a, rfl, -, -, ha⟩ | ⟨op, rfl, -⟩
    · exact .inr (by rw [ha hpc])
    · exact .inl ⟨op, rfl⟩

/-! ## Loading an image -/

theorem firstNonCell_eq_find? (image : List Nat) : firstNonCell image = image.find? (fun v => decide (256 ≤ v)) := by
  induction image with
  | nil => rfl
  | cons v vs ih =>
    rw [firstNonCell, List.find?_cons]
    by_cases h : 256 ≤ v <;> simp [h, ih]

theorem firstNonCell_eq_none_iff (image : List Nat) : firstNonCell image = none ↔ ∀ v ∈ image, v < 256 := by
  simp [firstNonCell_eq_find?]

theorem firstNonCell_some {image : List Nat} {v : Nat} (h : firstNonCell image = some v) : v ∈ image ∧ 256 ≤ v := by
  rw [firstNonCell_eq_find?] at h
  exact ⟨List.mem_of_find?_eq_some h, by simpa using List.find?_some h⟩

theorem loadImage_tooLong (image : List Nat) (h : Config.memSize < image.length) :
    loadImage image = .error (.tooLong image.length) := if_pos h

theorem loadImage_notACell (image : List Nat) (v : Nat) (hlen : image.length ≤ Config.memSize)
    (h : firstNonCell image = some v) : loadImage image = .error (.notACell v) := by
  rw [loadImage, if_neg (Nat.not_lt.mpr hlen), h]

theorem loadImage_of_cells (image : List Nat) (hlen : image.length ≤ Config.memSize) (h : firstNonCell image = none) :
    loadImage image = .ok (Memory.writeCells [] 0 (image.map trunc)) := by
  rw [loadImage, if_neg (Nat.not_lt.mpr hlen), h]

/-- Where an image is loaded, an address reads as the image's element there, and as 0 past the image (R41, R55). -/
theorem read_of_loadImage {image : List Nat} {m : Memory} (h : loadImage image = .ok m) (addr : Nat) :
    m.read addr = trunc (image.getD addr 0) := by
  obtain ⟨hlen, -, rfl⟩ := loadImage_ok image m h
  by_cases haddr : addr < image.length
  · have hread := Memory.read_writeCells_inside [] 0 addr (image.map trunc) rfl (by simpa using haddr) (by simpa using hlen)
    simpa [haddr] using hread
  · rw [Memory.read_writeCells_outside [] 0 addr _ (by simpa using haddr), List.getD_eq_default _ _ (Nat.le_of_not_lt haddr)]
    rfl

/-- Settles O51: the length is checked first, then the elements; where both checks pass, the cells are the image's elements. -/
theorem imageIsCopiedFromZeroOrRefused : Obligations.ImageIsCopiedFromZeroOrRefused := by
  unfold Obligations.ImageIsCopiedFromZeroOrRefused
  refine fun image => ⟨fun ⟨hlen, hcells⟩ => ?loads, loadImage_tooLong image, fun ⟨hlen, v, hv, hbig⟩ => ?refused⟩
  case loads =>
    have hload := loadImage_of_cells image hlen ((firstNonCell_eq_none_iff image).mpr hcells)
    refine ⟨_, hload, fun k hk => ?_⟩
    rw [read_of_loadImage hload k, List.getD_eq_getElem _ _ hk, trunc_toNat_eq]
    exact Nat.mod_eq_of_lt (hcells _ (List.getElem_mem hk))
  case refused =>
    cases hfirst : firstNonCell image with
    | none => exact absurd ((firstNonCell_eq_none_iff image).mp hfirst v hv) (Nat.not_lt.mpr hbig)
    | some w =>
      obtain ⟨hw, hwbig⟩ := firstNonCell_some hfirst
      exact ⟨w, hw, hwbig, loadImage_notACell image w hlen hfirst⟩

/-- Settles O50: memory after reset is empty, and past the image an address reads 0. -/
theorem uncoveredCellsHoldZero : Obligations.UncoveredCellsHoldZero := by
  unfold Obligations.UncoveredCellsHoldZero
  refine ⟨fun _ => rfl, fun _ _ => rfl, fun draw image s addr hstart haddr => ?_⟩
  obtain ⟨m, hload, rfl⟩ := start_ok draw image s hstart
  rw [State.setMem_mem, read_of_loadImage hload, List.getD_eq_default _ _ haddr]
  rfl

/-- The reset state with any canonical memory meets the invariant. -/
theorem State.resetWith_setMem_inv (draw : RegFile) (m : Memory) (h : m.wf = true) : ((State.resetWith draw).setMem m).Inv :=
  ⟨h, Nat.zero_le _, ⟨fun _ => rfl, fun _ => rfl⟩, (State.recordAgrees_iff_clear _ rfl).mpr ⟨rfl, rfl, rfl⟩⟩

/-- Settles O37: execution starts in the reset state over the image's memory, which is canonical. -/
theorem startMeetsTheInvariant : Obligations.StartMeetsTheInvariant := by
  unfold Obligations.StartMeetsTheInvariant
  intro draw image s hstart
  obtain ⟨m, hload, rfl⟩ := start_ok draw image s hstart
  exact ⟨State.resetWith_setMem_inv draw m (loadImage_wf image m hload), rfl⟩

/-! ## A sequence of writes -/

/-- Memory with a sequence of cells written, the first one first. -/
def Memory.writeAll (m : Memory) (writes : List (Nat × Byte)) : Memory := writes.foldl (fun m w => m.write w.1 w.2) m

theorem Memory.writeAll_append_singleton (m : Memory) (writes : List (Nat × Byte)) (w : Nat × Byte) :
    m.writeAll (writes ++ [w]) = (m.writeAll writes).write w.1 w.2 := by
  rw [Memory.writeAll, List.foldl_append]
  rfl

/-- Writes below `MEM_SIZE` keep the canonical form. -/
theorem Memory.writeAll_wf (m : Memory) (writes : List (Nat × Byte)) (hm : m.wf = true)
    (hw : ∀ w ∈ writes, w.1 < Config.memSize) : (m.writeAll writes).wf = true := by
  induction writes generalizing m with
  | nil => exact hm
  | cons w ws ih =>
    obtain ⟨hw, hws⟩ := List.forall_mem_cons.mp hw
    exact ih (m.write w.1 w.2) (Memory.write_wf m w.1 w.2 hm hw) hws

/-- After a sequence of writes an address reads as its last write left it, and as before where there is none (R50). -/
theorem Memory.read_writeAll (m : Memory) (writes : List (Nat × Byte)) (addr : Nat) (hm : m.wf = true)
    (hw : ∀ w ∈ writes, w.1 < Config.memSize) :
    (m.writeAll writes).read addr = (writes.reverse.find? (fun w => w.1 = addr)).elim (m.read addr) Prod.snd := by
  induction writes using List.reverseRecOn with
  | nil => rfl
  | append_singleton ws w ih =>
    obtain ⟨hws, -⟩ := List.forall_mem_append.mp hw
    rw [Memory.writeAll_append_singleton, Memory.read_write _ _ _ _ (Memory.writeAll_wf m ws hm hws), List.reverse_concat,
      List.find?_cons]
    by_cases h : addr = w.1
    · simp [h]
    · simpa [h, Ne.symm h] using ih hws

/-- Settles O49: by induction on the writes, from the last one back; the image's memory is what they start from. -/
theorem readReturnsTheMostRecentWrite : Obligations.ReadReturnsTheMostRecentWrite := by
  unfold Obligations.ReadReturnsTheMostRecentWrite
  intro image m writes addr hload hw
  have hread := Memory.read_writeAll m writes addr (loadImage_wf image m hload) hw
  rw [read_of_loadImage hload addr] at hread
  refine hread.trans ?_
  cases writes.reverse.find? (fun w => w.1 = addr) <;> rfl

end Sys2Proof.Machine

/-! The statements about the encoding (spec/30_encoding.md). First the decoder over any reader of cells, then decoding a list of
bytes, then the fetch and the step that takes its fault. -/

namespace Sys2Proof

/-! ## The lookup -/

theorem findHandler_eq_none_iff (op : Byte) (hs : List Handler) : findHandler op hs = none ↔ op ∉ hs.map Handler.opcode := by
  induction hs with
  | nil => simp [findHandler]
  | cons h hs ih =>
    rw [findHandler, List.map_cons, List.mem_cons]
    split
    · simp [*]
    · simp [ih, Ne.symm ‹_›]

/-- The bytes the lookup refuses are those that are none of the nine opcode values (R64, R66). -/
theorem lookup_eq_none_iff (op : Byte) :
    lookup op = none ↔ op.toNat ∉ [0x01, 0x82, 0x47, 0xA2, 0xA0, 0x45, 0x46, 0x50, 0x11] := by
  rw [lookup, findHandler_eq_none_iff, ← List.mem_map_of_injective (f := BitVec.toNat) BitVec.toNat_injective]
  rfl

/-! ## The decoder over any reader of cells

Beside `decodeAt_of_cells`: the converse, the readings that end the decoder with an error, and readers that differ in their
errors only. -/

section

variable {ε : Type} (read : Nat → Except ε Byte) (invalid : Byte → ε) (pc : Nat)

/-- The decoder answers exactly the instruction whose cells its reader gives, in order: no bit of a cell is a don't-care
(R62, R65). -/
theorem decodeAt_eq_ok_iff (i : Instr) :
    decodeAt read invalid pc = .ok i ↔ ∀ (k : Nat) (hk : k < (encode i).length), read (pc + k) = .ok (encode i)[k] := by
  refine ⟨fun e k hk => ?_, decodeAt_of_cells read invalid pc i⟩
  obtain ⟨op, h, a, b, hop, hl, rfl, ha, hb⟩ := decodeAt_ok read invalid pc i e
  have hsize := lookup_size_cases op h hl
  simp only [length_encode, lookup_size op h a b hl] at hk
  simp only [lookup_encode op h a b hl]
  match k with
  | 0 => simpa using hop
  | 1 => simpa using ha (by omega)
  | 2 => simpa using hb (by omega)
  | k + 3 => omega

variable {read pc}

theorem decodeAt_opcode_error {x : ε} (h0 : read pc = .error x) : decodeAt read invalid pc = .error x := by
  rw [decodeAt, h0]; rfl

variable {op : Byte} (h0 : read pc = .ok op)
include h0

theorem decodeAt_invalid (hl : lookup op = none) : decodeAt read invalid pc = .error (invalid op) := by
  simp [decodeAt, h0, hl, bind, Except.bind]

variable {h : Handler} (hl : lookup op = some h)
include hl

theorem decodeAt_first_operand_error {x : ε} (hs : 2 ≤ h.size) (h1 : read (pc + 1) = .error x) :
    decodeAt read invalid pc = .error x := by
  simp [decodeAt, h0, hl, hs, h1, bind, Except.bind]

theorem decodeAt_second_operand_error {a : Byte} {x : ε} (hs : h.size = 3) (h1 : read (pc + 1) = .ok a)
    (h2 : read (pc + 2) = .error x) : decodeAt read invalid pc = .error x := by
  simp [decodeAt, h0, hl, hs, h1, h2, bind, Except.bind]

end

/-- The decoder ends with the error of the first of an instruction's cells that its reader does not give (R63). -/
theorem decodeAt_of_cut_cells {ε : Type} (read : Nat → Except ε Byte) (invalid : Byte → ε) (pc : Nat) (i : Instr) (k : Nat)
    (x : ε) (hk : k < (encode i).length) (hread : ∀ j (hj : j < k), read (pc + j) = .ok (encode i)[j])
    (hcut : read (pc + k) = .error x) : decodeAt read invalid pc = .error x := by
  obtain ⟨op, operands, h, henc, hl, hs⟩ := lookup_encode_head i
  rw [length_encode, ← hs] at hk
  have hsize := lookup_size_cases op h hl
  have hop (hj : 0 < k) : read pc = .ok op := by simpa [henc] using hread 0 hj
  match k with
  | 0 => exact decodeAt_opcode_error invalid hcut
  | 1 => exact decodeAt_first_operand_error invalid (hop (by omega)) hl (by omega) hcut
  | 2 => exact decodeAt_second_operand_error invalid (hop (by omega)) hl (by omega) (hread 1 (by omega)) hcut
  | k + 3 => omega

/-- Of two readers that give the same cells, one naming the other's errors anew, the decoder makes the same of both. -/
theorem decodeAt_mapError {ε δ : Type} (f : ε → δ) (read : Nat → Except ε Byte) (read' : Nat → Except δ Byte)
    (invalid : Byte → ε) (pc pc' : Nat) (hread : ∀ k, k < 3 → read' (pc' + k) = (read (pc + k)).mapError f) :
    decodeAt read' (fun op => f (invalid op)) pc' = (decodeAt read invalid pc).mapError f := by
  have h0 : read' pc' = (read pc).mapError f := hread 0 (by omega)
  have h1 := hread 1 (by omega)
  have h2 := hread 2 (by omega)
  unfold decodeAt
  rw [h0, h1, h2]
  cases read pc with
  | error x => rfl
  | ok op =>
    cases hl : lookup op with
    | none => simp [hl, bind, Except.bind, Except.mapError]
    | some h =>
      simp only [hl, bind, Except.bind, Except.mapError]
      rcases lookup_size_cases op h hl with hs | hs | hs
      · simp [hs, pure, Except.pure]
      · cases read (pc + 1) <;> simp [hs, pure, Except.pure]
      · cases read (pc + 1) <;> cases read (pc + 2) <;> simp [hs, pure, Except.pure]

/-! ## Decoding a list of bytes -/

theorem cellAt_eq_ok_iff (bytes : List Byte) (k : Nat) (b : Byte) : cellAt bytes k = .ok b ↔ bytes[k]? = some b := by
  unfold cellAt
  split <;> simp [*]

theorem cellAt_missing (bytes : List Byte) (k : Nat) (h : bytes.length ≤ k) : cellAt bytes k = .error (.missingCell k) := by
  rw [cellAt, List.getElem?_eq_none h]

/-- Decoding a list is the decoder over its cells, and drops the instruction's own. -/
theorem decode_eq_map (bytes : List Byte) :
    decode bytes = (decodeAt (cellAt bytes) .invalidOpcode 0).map (fun i => (i, bytes.drop i.size)) := by
  unfold decode
  cases decodeAt (cellAt bytes) .invalidOpcode 0 <;> rfl

theorem decode_eq_error_iff (bytes : List Byte) (x : DecodeError) :
    decode bytes = .error x ↔ decodeAt (cellAt bytes) .invalidOpcode 0 = .error x := by
  rw [decode_eq_map]
  cases decodeAt (cellAt bytes) .invalidOpcode 0 <;> simp [Except.map]

/-- The decoder reads an instruction from exactly the lists that begin with its encoding (R62). -/
theorem decodeAt_cellAt_eq_ok_iff (bytes : List Byte) (i : Instr) :
    decodeAt (cellAt bytes) .invalidOpcode 0 = .ok i ↔ encode i <+: bytes := by
  simp only [decodeAt_eq_ok_iff, Nat.zero_add, cellAt_eq_ok_iff, List.prefix_iff_getElem?]

/-- A list decodes to an instruction and a rest exactly when it is the instruction's encoding followed by the rest. -/
theorem decode_eq_ok_iff (bytes : List Byte) (i : Instr) (rest : List Byte) :
    decode bytes = .ok (i, rest) ↔ bytes = encode i ++ rest := by
  have hdrop : decode bytes = .ok (i, rest) ↔ encode i <+: bytes ∧ bytes.drop i.size = rest := by
    rw [decode_eq_map, ← decodeAt_cellAt_eq_ok_iff]
    cases decodeAt (cellAt bytes) .invalidOpcode 0 with
    | error x => simp [Except.map]
    | ok j => simp only [Except.map, Except.ok.injEq, Prod.mk.injEq]; exact and_congr_right fun hj => by rw [hj]
  rw [hdrop, ← length_encode]
  constructor
  · rintro ⟨⟨tail, rfl⟩, rfl⟩
    rw [List.drop_left]
  · rintro rfl
    exact ⟨List.prefix_append _ _, List.drop_left⟩

/-- Settles O2: the encoding followed by the rest is what decodes to the instruction and that rest. -/
theorem decodeOfEncodeIsTheInstruction : Obligations.DecodeOfEncodeIsTheInstruction := by
  unfold Obligations.DecodeOfEncodeIsTheInstruction
  exact fun i rest => (decode_eq_ok_iff _ i rest).mpr rfl

/-- Settles O3: nothing but the encoding followed by the rest decodes to the instruction and that rest. -/
theorem encodeOfDecodeIsTheCells : Obligations.EncodeOfDecodeIsTheCells := by
  unfold Obligations.EncodeOfDecodeIsTheCells
  exact fun bytes i rest => (decode_eq_ok_iff bytes i rest).mp

/-- Settles O1: each word is its instruction's encoding, with nothing after it. -/
theorem opcodeWordsDecode : Obligations.OpcodeWordsDecode := by
  unfold Obligations.OpcodeWordsDecode
  have decode_encode (i : Instr) : decode (encode i) = .ok (i, []) := (decode_eq_ok_iff _ i []).mpr (List.append_nil _).symm
  exact ⟨decode_encode .hlt, decode_encode (.ldi 0x00 0x2A), decode_encode (.prn 0x07), decode_encode (.mul 0x01 0x02),
    decode_encode (.add 0x01 0x02), decode_encode (.push 0x03), decode_encode (.pop 0x04), decode_encode (.call 0xFF),
    decode_encode .ret⟩

theorem encode_ne_nil (i : Instr) : encode i ≠ [] := by
  obtain ⟨op, operands, -, henc, -, -⟩ := lookup_encode_head i
  simp [henc]

/-- Instructions that begin the same cells are the same, and the same cells follow them. -/
theorem encode_append_inj {i j : Instr} {xs ys : List Byte} (h : encode i ++ xs = encode j ++ ys) : i = j ∧ xs = ys := by
  have hi : decode (encode i ++ xs) = .ok (i, xs) := (decode_eq_ok_iff _ i xs).mpr rfl
  have hj : decode (encode i ++ xs) = .ok (j, ys) := (decode_eq_ok_iff _ j ys).mpr h
  rw [hi] at hj
  cases hj
  exact ⟨rfl, rfl⟩

/-- Settles O4: by induction on the first program, its first instruction decoded from the cells of both. -/
theorem programCellsDetermineTheProgram : Obligations.ProgramCellsDetermineTheProgram := by
  unfold Obligations.ProgramCellsDetermineTheProgram
  intro is
  induction is with
  | nil =>
    intro js h
    cases js with
    | nil => rfl
    | cons j js => simp [encodeProgram, encode_ne_nil] at h
  | cons i is ih =>
    intro js h
    cases js with
    | nil => simp [encodeProgram, encode_ne_nil] at h
    | cons j js =>
      obtain ⟨rfl, hrest⟩ := encode_append_inj h
      rw [ih js hrest]

/-- A list is refused for its opcode byte exactly when that byte has no row, whatever follows it (R64). -/
theorem decode_invalidOpcode_iff (op : Byte) (rest : List Byte) :
    decode (op :: rest) = .error (.invalidOpcode op) ↔ lookup op = none := by
  have hop : cellAt (op :: rest) 0 = .ok op := rfl
  rw [decode_eq_error_iff]
  constructor
  · intro e
    have hcell (k : Nat) : cellAt (op :: rest) k ≠ .error (.invalidOpcode op) := by
      unfold cellAt; split <;> simp
    rcases decodeAt_error _ _ _ _ e with h0 | ⟨op', hop', hl, -⟩ | ⟨-, -, -, -, -, h1⟩ | ⟨-, -, -, -, -, -, -, h2⟩
    · exact absurd h0 (hcell 0)
    · rw [hop] at hop'
      cases hop'
      exact hl
    · exact absurd h1 (hcell 1)
    · exact absurd h2 (hcell 2)
  · exact decodeAt_invalid _ hop

/-- Of the 256 bytes, all but the nine opcode values have no row (R64). -/
theorem length_filter_lookup_isNone : ((List.range 256).filter (fun n => (lookup (trunc n)).isNone)).length = 247 := by
  have hrefused : (Finset.range 256).filter (fun n => (lookup (trunc n)).isNone) =
      Finset.range 256 \ {0x01, 0x82, 0x47, 0xA2, 0xA0, 0x45, 0x46, 0x50, 0x11} := by
    ext n
    rw [Finset.mem_filter, Finset.mem_sdiff]
    refine and_congr_right fun hn => ?_
    rw [Option.isNone_iff_eq_none, lookup_eq_none_iff, Machine.trunc_toNat_eq, Nat.mod_eq_of_lt (Finset.mem_range.mp hn)]
    simp
  rw [← List.toFinset_card_of_nodup (List.nodup_range.filter _), List.toFinset_filter, List.toFinset_range, hrefused,
    Finset.card_sdiff_of_subset (by simp [Finset.insert_subset_iff]), Finset.card_range]
  rfl

/-- Settles O5: the refused bytes are those the lookup has no row for, and those are all but the nine opcode values. -/
theorem otherOpcodesAreInvalid : Obligations.OtherOpcodesAreInvalid := by
  unfold Obligations.OtherOpcodesAreInvalid
  exact ⟨fun op rest => (decode_invalidOpcode_iff op rest).trans (lookup_eq_none_iff op), length_filter_lookup_isNone⟩

/-- Settles O6: the cells before the cut are read, and the next one is missing. -/
theorem cutInstructionMissesItsNextCell : Obligations.CutInstructionMissesItsNextCell := by
  unfold Obligations.CutInstructionMissesItsNextCell
  intro i k hk
  rw [← length_encode] at hk
  rw [decode_eq_error_iff]
  refine decodeAt_of_cut_cells _ _ 0 i k _ hk (fun j hj => ?_) ?_ <;> rw [Nat.zero_add]
  · rw [cellAt_eq_ok_iff, List.getElem?_take_of_lt hj, List.getElem?_eq_getElem]
  · exact cellAt_missing _ k (List.length_take_le k _)

end Sys2Proof

namespace Sys2Proof.Machine

/-! ## The fetch -/

/-- The fetch reads an instruction exactly where its cells stand in memory at the PC (R61, R63). -/
theorem fetch_eq_ok_iff (s : State) (i : Instr) :
    fetch s = .ok i ↔ ∀ (k : Nat) (hk : k < (encode i).length),
      s.pc + k < Config.memSize ∧ s.mem.read (s.pc + k) = (encode i)[k] := by
  rw [fetch, decodeAt_eq_ok_iff]
  simp only [memRead_eq_ok_iff]

/-- Settles O11: what makes a fetch answer `i` is said of the PC and the cells of `i` alone. -/
theorem fetchReadsOnlyTheInstructionsCells : Obligations.FetchReadsOnlyTheInstructionsCells := by
  unfold Obligations.FetchReadsOnlyTheInstructionsCells
  intro s t i hs hpc hmem
  rw [fetch_eq_ok_iff] at hs ⊢
  intro k hk
  rw [hpc, hmem k (by rwa [← length_encode])]
  exact hs k hk

theorem fetch_past_memory (s : State) (h : ¬ s.pc < Config.memSize) : fetch s = .error (.outOfBounds .mem s.pc) :=
  decodeAt_opcode_error _ (memRead_error s.pc s h)

/-- Settles O8: the opcode cell is the first of a fetch's reads, so past memory it is the one that fails. -/
theorem opcodeFetchPastMemoryFaults : Obligations.OpcodeFetchPastMemoryFaults := by
  unfold Obligations.OpcodeFetchPastMemoryFaults
  refine ⟨fetch_past_memory, fun s hr hpc => step_running_error s _ hr (fetch_past_memory s hpc), fun s i _ hf => ?_⟩
  have hpos : 0 < (encode i).length := List.length_pos_iff.mpr (encode_ne_nil i)
  obtain ⟨-, hcell⟩ := (fetch_eq_ok_iff s i).mp hf 0 hpos
  rw [List.head?_eq_getElem?, List.getElem?_eq_getElem hpos, ← hcell, Nat.add_zero]

/-! ## What decoding the cells at the PC says of the fetch -/

/-- The fault a fetch raises where decoding the cells from `pc` on fails (R61, R63, R64). -/
def fetchFault (pc : Nat) : DecodeError → Fault
  | .invalidOpcode op => .invalidOpcode op
  | .missingCell k => .outOfBounds .mem (pc + k)

/-- A cell the longest instruction could need is read from memory as it is from the list of cells at the PC. -/
theorem memRead_eq_cellAt (s : State) (k : Nat) (hk : k < 3) :
    memRead (s.pc + k) s = (cellAt s.bytesAtPc k).mapError (fetchFault s.pc) := by
  by_cases h : s.pc + k < Config.memSize
  · have hcell : cellAt s.bytesAtPc k = .ok (s.mem.read (s.pc + k)) := by
      rw [cellAt_eq_ok_iff, State.bytesAtPc, List.getElem?_map, List.getElem?_range (by omega)]; rfl
    rw [memRead_ok _ s h, hcell]; rfl
  · have hlen : s.bytesAtPc.length ≤ k := by
      rw [State.bytesAtPc, List.length_map, List.length_range]; omega
    rw [memRead_error _ s h, cellAt_missing _ k hlen]; rfl

/-- The fetch is the decoding of the cells at the PC, each of its errors a fault (R60, R80). -/
theorem fetch_eq_decodeAt_bytesAtPc (s : State) :
    fetch s = (decodeAt (cellAt s.bytesAtPc) .invalidOpcode 0).mapError (fetchFault s.pc) :=
  decodeAt_mapError (fetchFault s.pc) (cellAt s.bytesAtPc) _ .invalidOpcode 0 s.pc fun k hk => by
    rw [Nat.zero_add]; exact memRead_eq_cellAt s k hk

theorem step_of_decode_error (s : State) (x : DecodeError) (hr : s.run = .running) (e : decode s.bytesAtPc = .error x) :
    step s = .next (takeFault (fetchFault s.pc x) s) := by
  refine step_running_error s _ hr ?_
  rw [fetch_eq_decodeAt_bytesAtPc, (decode_eq_error_iff _ x).mp e]; rfl

/-- Settles O9: the step takes the fault that the decoder's error is for the fetch. -/
theorem stepTakesTheFetchFault : Obligations.StepTakesTheFetchFault := by
  unfold Obligations.StepTakesTheFetchFault
  exact fun s hr => ⟨fun k => step_of_decode_error s (.missingCell k) hr,
    fun op => step_of_decode_error s (.invalidOpcode op) hr⟩

/-! ## The last cell of memory -/

/-- An instruction of one cell is fetched wherever that cell is (R63, D5). -/
theorem fetch_of_one_cell (s : State) (i : Instr) (hpc : s.pc < Config.memSize) (hcell : encode i = [s.mem.read s.pc]) :
    fetch s = .ok i := by
  rw [fetch_eq_ok_iff]
  simp only [hcell, List.length_singleton]
  intro k hk
  obtain rfl : k = 0 := by omega
  exact ⟨hpc, rfl⟩

/-- An opcode with an operand, in the last cell, faults on the cell past it (R63). -/
theorem fetch_operand_past_memory (s : State) (h : Handler) (hpc : s.pc = 255) (hl : lookup (s.mem.read 255) = some h)
    (hs : 2 ≤ h.size) : fetch s = .error (.outOfBounds .mem 256) := by
  have hop : memRead s.pc s = .ok (s.mem.read 255) := by rw [hpc]; rfl
  have hmiss : memRead (s.pc + 1) s = .error (.outOfBounds .mem 256) := by rw [hpc]; rfl
  exact decodeAt_first_operand_error _ hop hl hs hmiss

theorem lookup_of_longer_opcode (op : Byte) (hop : op ∈ ([0x82, 0x47, 0xA2, 0xA0, 0x45, 0x46, 0x50] : List Byte)) :
    ∃ h, lookup op = some h ∧ 2 ≤ h.size := by
  simp only [List.mem_cons, List.not_mem_nil, or_false] at hop
  rcases hop with rfl | rfl | rfl | rfl | rfl | rfl | rfl <;> exact ⟨_, rfl, by decide⟩

/-- Settles O12: at PC 255 there is the opcode cell alone, so what needs no other runs and what needs one faults at 256. -/
theorem onlyOneCellInstructionsRunInTheLastCell : Obligations.OnlyOneCellInstructionsRunInTheLastCell := by
  unfold Obligations.OnlyOneCellInstructionsRunInTheLastCell
  refine fun s hr hpc => ⟨fun hcell => ?hlt, fun hcell => ?ret, fun hcell => ?longer⟩
  case hlt => exact step_running_ok s .hlt hr (fetch_of_one_cell s .hlt (hpc ▸ byte_lt_memSize 255) (by rw [hpc, hcell]; rfl))
  case ret => exact step_running_ok s .ret hr (fetch_of_one_cell s .ret (hpc ▸ byte_lt_memSize 255) (by rw [hpc, hcell]; rfl))
  case longer =>
    obtain ⟨h, hl, hs⟩ := lookup_of_longer_opcode _ hcell
    exact step_running_error s _ hr (fetch_operand_past_memory s h hpc hl hs)

end Sys2Proof.Machine

/-! The statements about the cycle and the halt (spec/40_cycle_and_halt.md). First the step of a running block, then HLT and PRN,
the halted block, the program counter, and the end of a run. -/

namespace Sys2Proof.Machine

/-! ## The step of a running block -/

/-- The instruction that the cells at the PC decode to is the one fetched (R60, R80). -/
theorem fetch_of_decode_ok (s : State) (i : Instr) (rest : List Byte) (e : decode s.bytesAtPc = .ok (i, rest)) :
    fetch s = .ok i := by
  have hprefix : encode i <+: s.bytesAtPc := ⟨rest, ((decode_eq_ok_iff _ i rest).mp e).symm⟩
  rw [fetch_eq_decodeAt_bytesAtPc, (decodeAt_cellAt_eq_ok_iff _ i).mpr hprefix]; rfl

/-- Settles O7: the instruction decoded is the one the step fetches. -/
theorem stepRunsTheDecodedInstruction : Obligations.StepRunsTheDecodedInstruction := by
  unfold Obligations.StepRunsTheDecodedInstruction
  exact fun s i rest hr e => step_running_ok s i hr (fetch_of_decode_ok s i rest e)

/-! ## HLT and PRN -/

theorem exec_hlt (s : State) : exec .hlt s = .next ((s.halt .hlt).advance 1) := exec_of_effect_ok rfl

/-- Settles O13: HLT's effect halts, and the end of the step advances the PC by its size, 1. -/
theorem hltHaltsPastItself : Obligations.HltHaltsPastItself := by
  unfold Obligations.HltHaltsPastItself
  exact exec_hlt

theorem exec_prn_ok (a : Byte) (s : State) (h : a.toNat < Config.numRegs) :
    exec (.prn a) s = .next ((s.emit (s.reg ⟨a.toNat, h⟩)).advance 2) :=
  exec_of_effect_ok (by rw [effectOf, prnEffect_eq, dif_pos h])

theorem exec_prn_missing (a : Byte) (s : State) (h : ¬ a.toNat < Config.numRegs) :
    exec (.prn a) s = .next (takeFault (.outOfBounds .reg a.toNat) s) :=
  exec_of_effect_error (by rw [effectOf, prnEffect_eq, dif_neg h])

/-- Settles O30: HLT only halts and advances; PRN emits and advances, or takes the fault of its missing register. -/
theorem hltAndPrnFrame : Obligations.HltAndPrnFrame := by
  unfold Obligations.HltAndPrnFrame
  refine ⟨fun s t h => ?hlt, fun a s t h => ?prn⟩
  case hlt =>
    rw [exec_hlt] at h
    cases h
    exact ⟨rfl, fun _ => rfl, rfl, rfl, rfl, rfl⟩
  case prn =>
    by_cases ha : a.toNat < Config.numRegs
    · rw [exec_prn_ok a s ha] at h
      cases h
      exact ⟨rfl, fun _ => rfl, fun _ => ⟨rfl, rfl, rfl, rfl, rfl⟩, fun hmissing => absurd ha hmissing⟩
    · rw [exec_prn_missing a s ha] at h
      cases h
      exact ⟨rfl, fun _ => rfl, fun hexists => absurd hexists ha, fun _ => ⟨rfl, rfl⟩⟩

/-! ## The halted block -/

/-- Settles O40: a halted block issues no transaction, and its step answers the state it is in. -/
theorem haltedBlockDoesNothing : Obligations.HaltedBlockDoesNothing := by
  unfold Obligations.HaltedBlockDoesNothing
  intro s hr
  refine ⟨stepTransactions_halted s hr, fun t hstep => ?_⟩
  rw [step_halted s hr] at hstep
  cases hstep
  rfl

/-! ## The program counter -/

/-- The PC an instruction that raises no fault leaves: past its cells, or set by RET or CALL (R82, R120). -/
theorem committed_pc (i : Instr) (s u : State) (he : effectOf i s = .ok u) :
    ((if i.setsPc then u else u.advance i.size).pc = s.pc + i.size ∧ i.setsPc = false) ∨
      (i = .ret ∧ (if i.setsPc then u else u.advance i.size).pc = (s.mem.read s.sp.toNat).toNat) ∨
      ∃ a, i = .call a ∧ (if i.setsPc then u else u.advance i.size).pc < 256 := by
  rcases effectOf_ok i s u he with ⟨rfl, rfl⟩ | ⟨-, -, -, -, -, -, -, ⟨hpc, hset⟩ | ⟨rfl, hpc⟩ | ⟨a, rfl, hpc⟩⟩
  · exact .inl ⟨rfl, rfl⟩
  · exact .inl ⟨by simp [hset, State.advance, hpc], hset⟩
  · exact .inr (.inl ⟨rfl, hpc⟩)
  · exact .inr (.inr ⟨a, rfl, hpc⟩)

/-- Settles O46: a fault taken keeps the PC, and otherwise it is the committed state's, which CALL and RET alone set. -/
theorem pcAdvancesOrIsSet : Obligations.PcAdvancesOrIsSet := by
  unfold Obligations.PcAdvancesOrIsSet
  intro s t hr _ hstep
  rcases step_next s t hstep with
    ⟨hh, -⟩ | ⟨-, f, -, rfl⟩ | ⟨-, i, -, f, -, rfl⟩ | ⟨-, i, hf, u, he, rfl⟩
  · simp [hr] at hh
  · exact .inl ⟨f.reason_isFault, rfl⟩
  · exact .inl ⟨f.reason_isFault, rfl⟩
  · refine .inr ⟨i, hf, ?_⟩
    rcases committed_pc i s u he with ⟨hpc, hset⟩ | hret | hcall
    · refine .inl ⟨hpc, ?_, fun a => ?_⟩ <;> rintro rfl <;> cases hset
    · exact .inr (.inl hret)
    · exact .inr (.inr hcall)

/-! ## Runs of the machine -/

/-- A run of one step more goes on from the state that step answers. -/
theorem run_succ (M : Host.Core) (n : Nat) (s u : M.State) (h : M.step s = .next u) : M.run (n + 1) s = M.run n u := by
  rw [Host.Core.run, h]

/-- A halted block stays as it is, however many steps are counted (R83, log entry 4). -/
theorem run_halted (n : Nat) (s : State) (h : s.run = .halted) : Host.Core.run Sys2Proof.core n s = .next s := by
  induction n with
  | zero => rfl
  | succ n ih => rw [run_succ Sys2Proof.core n s s (step_halted s h), ih]

/-! ## The end of a run -/

theorem runUntilHalted_halted (n : Nat) (s : State) (h : s.run = .halted) : runUntilHalted n s = some s := by
  unfold runUntilHalted
  rw [h]

theorem runUntilHalted_succ (n : Nat) (s u : State) (hr : s.run = .running) (hstep : step s = .next u) :
    runUntilHalted (n + 1) s = runUntilHalted n u := by
  simp [runUntilHalted, hr, hstep]

/-- A run that ends had ended already, or takes a step and ends under the fuel left. -/
theorem runUntilHalted_some (n : Nat) (s t : State) (h : runUntilHalted n s = some t) :
    (s.run = .halted ∧ t = s) ∨
      (s.run = .running ∧ ∃ k u, n = k + 1 ∧ step s = .next u ∧ runUntilHalted k u = some t) := by
  unfold runUntilHalted at h
  cases hr : s.run with
  | halted => simp only [hr, Option.some.injEq] at h; exact .inl ⟨rfl, h.symm⟩
  | running =>
    cases n with
    | zero => simp [hr] at h
    | succ k =>
      cases hstep : step s with
      | next u => simp only [hr, hstep] at h; exact .inr ⟨rfl, k, u, rfl, rfl, h⟩
      | fault _ | refused _ => simp [hr, hstep] at h

/-- An ended run ends in the same state under any more fuel. -/
theorem runUntilHalted_mono (n m : Nat) (s t : State) (h : runUntilHalted n s = some t) (hnm : n ≤ m) :
    runUntilHalted m s = some t := by
  induction m generalizing n s with
  | zero => obtain rfl : n = 0 := Nat.le_zero.mp hnm; exact h
  | succ m ih =>
    rcases runUntilHalted_some n s t h with ⟨hr, rfl⟩ | ⟨hr, k, u, rfl, hstep, hu⟩
    · exact runUntilHalted_halted _ _ hr
    · rw [runUntilHalted_succ m s u hr hstep]
      exact ih k u hu (Nat.le_of_succ_le_succ hnm)

/-- A run ends Halted, and the machine's steps reach its end. -/
theorem run_of_runUntilHalted (n : Nat) (s t : State) (h : runUntilHalted n s = some t) :
    t.run = .halted ∧ Host.Core.run Sys2Proof.core n s = .next t := by
  induction n generalizing s with
  | zero =>
    rcases runUntilHalted_some 0 s t h with ⟨hr, rfl⟩ | ⟨-, k, u, hk, -⟩
    · exact ⟨hr, rfl⟩
    · cases hk
  | succ n ih =>
    rcases runUntilHalted_some (n + 1) s t h with ⟨hr, rfl⟩ | ⟨-, k, u, hk, hstep, hu⟩
    · exact ⟨hr, run_halted _ _ hr⟩
    · cases hk
      rw [run_succ Sys2Proof.core n s u hstep]
      exact ih u hu

/-- Settles O42: the run ends the same under more fuel, and under that fuel its steps are the machine's. -/
theorem endOfRunIsIndependentOfFuel : Obligations.EndOfRunIsIndependentOfFuel := by
  unfold Obligations.EndOfRunIsIndependentOfFuel
  intro n m s t h hnm
  have hm : runUntilHalted m s = some t := runUntilHalted_mono n m s t h hnm
  exact ⟨hm, run_of_runUntilHalted m s t hm⟩

end Sys2Proof.Machine

/-! The statements about registers and output (spec/41_register_io.md). First which effects raise a fault, then LDI and PRN, then
what LDI, MUL and ADD leave unchanged. -/

namespace Sys2Proof.Machine

/-! ## Which effects raise a fault -/

theorem isOk_dite {p : Prop} [Decidable p] (e : p → Except Fault State) (f : Fault) (b : Bool) (h : ∀ hp, (e hp).isOk = b) :
    (if hp : p then e hp else .error f).isOk = (decide p && b) := by
  by_cases hp : p
  · simp [hp, h]
  · simp only [hp, dite_false, decide_false, Bool.false_and]; rfl

theorem isOk_dite_ok {p : Prop} [Decidable p] (u : p → State) (f : Fault) :
    (if hp : p then Except.ok (u hp) else .error f).isOk = decide p := by
  rw [isOk_dite _ f true fun _ => rfl, Bool.and_true]

/-- An effect raises no fault exactly when every register operand names an existing register (R24). -/
theorem effectOf_isOk (i : Instr) (s : State) : (effectOf i s).isOk = i.wellFormed := by
  cases i with
  | hlt => rfl
  | ldi a b => rw [effectOf, ldiEffect_eq]; exact isOk_dite_ok _ _
  | prn a => rw [effectOf, prnEffect_eq]; exact isOk_dite_ok _ _
  | mul a b => rw [effectOf, mulEffect_eq]; exact isOk_dite _ _ _ fun _ => isOk_dite_ok _ _
  | add a b => rw [effectOf, addEffect_eq]; exact isOk_dite _ _ _ fun _ => isOk_dite_ok _ _
  | push a => rw [effectOf, pushEffect_eq]; exact isOk_dite_ok _ _
  | pop a => rw [effectOf, popEffect_eq]; exact isOk_dite_ok _ _
  | call a => rw [effectOf, callEffect_eq]; exact isOk_dite_ok _ _
  | ret => rw [effectOf, retEffect_eq]; rfl

theorem wellFormed_of_effectOf_ok {i : Instr} {s u : State} (he : effectOf i s = .ok u) : i.wellFormed = true := by
  rw [← effectOf_isOk i s, he]; rfl

theorem wellFormed_of_effectOf_error {i : Instr} {s : State} {f : Fault} (he : effectOf i s = .error f) :
    i.wellFormed = false := by
  rw [← effectOf_isOk i s, he]; rfl

/-! ## LDI and PRN -/

theorem exec_ldi_ok (a b : Byte) (s : State) (h : a.toNat < Config.numRegs) :
    exec (.ldi a b) s = .next ((s.setReg ⟨a.toNat, h⟩ b).advance 3) :=
  exec_of_effect_ok (by rw [effectOf, ldiEffect_eq, dif_pos h])

/-- Settles O14: LDI's effect sets the register, and the end of the step advances the PC by its size, 3. -/
theorem ldiLoadsTheImmediate : Obligations.LdiLoadsTheImmediate := by
  unfold Obligations.LdiLoadsTheImmediate
  exact exec_ldi_ok

/-- Settles O15: PRN's effect emits the register, and the end of the step advances the PC by its size, 2. -/
theorem prnEmitsTheRegister : Obligations.PrnEmitsTheRegister := by
  unfold Obligations.PrnEmitsTheRegister
  exact exec_prn_ok

/-! ## What LDI, MUL and ADD leave unchanged -/

/-- All the ALU does to the state, when it raises no fault, is to set its first register (R100). -/
theorem aluApply_ok {op a b : Byte} {s u : State} (he : aluApply op a b s = .ok u) :
    ∃ (ha : a.toNat < Config.numRegs) (v : Byte), u = s.setReg ⟨a.toNat, ha⟩ v := by
  rw [aluApply_eq] at he
  split at he
  case isFalse => cases he
  case isTrue ha =>
    refine ⟨ha, ?_⟩
    split at he
    case isFalse => cases he
    case isTrue =>
      split at he
      case isTrue => cases he; exact ⟨_, rfl⟩
      case isFalse => split at he <;> cases he; exact ⟨_, rfl⟩

/-- The one register update that an effect of LDI, MUL or ADD amounts to (R90, R102, R104). -/
theorem effectOf_ok_of_load_or_alu {i : Instr} {a b : Byte} {s u : State} (hi : i = .ldi a b ∨ i = .mul a b ∨ i = .add a b)
    (he : effectOf i s = .ok u) : ∃ (ha : a.toNat < Config.numRegs) (v : Byte), u = s.setReg ⟨a.toNat, ha⟩ v := by
  rcases hi with rfl | rfl | rfl
  case inl =>
    rw [effectOf, ldiEffect_eq] at he
    split at he <;> cases he
    exact ⟨‹_›, b, rfl⟩
  case inr.inl => exact aluApply_ok (op := opcMul) he
  case inr.inr => exact aluApply_ok (op := opcAdd) he

/-- Settles O29: the fault of a missing register is taken on the state before; otherwise the one change beside the PC's advance is
the first register's. -/
theorem loadAndAluFrame : Obligations.LoadAndAluFrame := by
  unfold Obligations.LoadAndAluFrame
  intro i a b s t hi h
  rcases exec_next i s t h with ⟨f, he, rfl⟩ | ⟨u, he, rfl⟩
  · have hwf : i.wellFormed = false := wellFormed_of_effectOf_error he
    exact ⟨fun _ _ => rfl, rfl, fun _ => rfl, fun hexist => absurd hexist (by simp [hwf]), fun _ => ⟨rfl, rfl⟩⟩
  · have hwf : i.wellFormed = true := wellFormed_of_effectOf_ok he
    obtain ⟨ha, v, rfl⟩ := effectOf_ok_of_load_or_alu hi he
    refine ⟨fun r hr => ?register, by simp, by simp, by simp, fun hmissing => absurd hmissing (by simp [hwf])⟩
    case register =>
      rw [State.committed_regs, State.setReg_regs]
      exact RegFile.getElem_set_ne s.regs _ r v hr

end Sys2Proof.Machine

/-! The statements about the ALU (spec/42_alu.md). First MUL and ADD with both registers existing, then the ALU's contract, and
that no step raises `UnsupportedOperation`. -/

namespace Sys2Proof.Machine

/-! ## MUL and ADD -/

theorem exec_mul_ok (a b : Byte) (s : State) (ha : a.toNat < Config.numRegs) (hb : b.toNat < Config.numRegs) :
    exec (.mul a b) s =
      .next ((s.setReg ⟨a.toNat, ha⟩ (s.reg ⟨a.toNat, ha⟩ * s.reg ⟨b.toNat, hb⟩)).advance 3) :=
  exec_of_effect_ok (by rw [effectOf, mulEffect_eq, dif_pos ha, dif_pos hb])

theorem exec_add_ok (a b : Byte) (s : State) (ha : a.toNat < Config.numRegs) (hb : b.toNat < Config.numRegs) :
    exec (.add a b) s =
      .next ((s.setReg ⟨a.toNat, ha⟩ (s.reg ⟨a.toNat, ha⟩ + s.reg ⟨b.toNat, hb⟩)).advance 3) :=
  exec_of_effect_ok (by rw [effectOf, addEffect_eq, dif_pos ha, dif_pos hb])

/-- Settles O16: MUL's effect sets the first register to the product, and the end of the step advances the PC by its size, 3. -/
theorem mulMultipliesIntoTheFirst : Obligations.MulMultipliesIntoTheFirst := by
  unfold Obligations.MulMultipliesIntoTheFirst
  exact exec_mul_ok

/-- Settles O17: ADD's effect sets the first register to the sum, and the end of the step advances the PC by its size, 3. -/
theorem addAddsIntoTheFirst : Obligations.AddAddsIntoTheFirst := by
  unfold Obligations.AddAddsIntoTheFirst
  exact exec_add_ok

/-- The two registers of an operation after its first is set: the first holds the result, the second keeps its value unless it is
the first. -/
theorem State.setReg_advance_operands (a b v : Byte) (n : Nat) (s : State) (ha : a.toNat < Config.numRegs)
    (hb : b.toNat < Config.numRegs) :
    ((s.setReg ⟨a.toNat, ha⟩ v).advance n).regs[a.toNat] = v ∧
      (a ≠ b → ((s.setReg ⟨a.toNat, ha⟩ v).advance n).regs[b.toNat] = s.regs[b.toNat]) := by
  refine ⟨State.setReg_reg_self s ⟨a.toNat, ha⟩ v, fun hab => ?_⟩
  have hne : b.toNat ≠ a.toNat := fun e => hab (BitVec.eq_of_toNat_eq e.symm)
  exact RegFile.getElem_set_ne s.regs ⟨a.toNat, ha⟩ ⟨b.toNat, hb⟩ v hne

/-- Settles O22: the 8-bit product is the product modulo 256, and setting the first register leaves the second alone. -/
theorem mulArithmeticDeterminism : Obligations.MulArithmeticDeterminism := by
  unfold Obligations.MulArithmeticDeterminism
  intro a b s ha hb
  obtain ⟨hresult, hsource⟩ := State.setReg_advance_operands a b (s.reg ⟨a.toNat, ha⟩ * s.reg ⟨b.toNat, hb⟩) 3 s ha hb
  exact ⟨_, exec_mul_ok a b s ha hb, (congrArg BitVec.toNat hresult).trans (BitVec.toNat_mul _ _), hsource⟩

/-- Settles O23: the 8-bit sum is the sum modulo 256, and setting the first register leaves the second alone. -/
theorem addArithmeticDeterminism : Obligations.AddArithmeticDeterminism := by
  unfold Obligations.AddArithmeticDeterminism
  intro a b s ha hb
  obtain ⟨hresult, hsource⟩ := State.setReg_advance_operands a b (s.reg ⟨a.toNat, ha⟩ + s.reg ⟨b.toNat, hb⟩) 3 s ha hb
  exact ⟨_, exec_add_ok a b s ha hb, (congrArg BitVec.toNat hresult).trans (BitVec.toNat_add _ _), hsource⟩

/-! ## The ALU's contract -/

/-- Settles O28: the two operand faults in the order of the reads, then the ALU's closed form where both registers exist. -/
theorem aluContract : Obligations.AluContract := by
  unfold Obligations.AluContract
  refine fun op ra rb s =>
    ⟨aluApply_missing_first op ra rb s, aluApply_missing_second op ra rb s, fun ha hb => ?exist⟩
  case exist =>
    rw [aluApply_eq, dif_pos ha, dif_pos hb]
    rfl

/-! ## `UnsupportedOperation` is not raised by a step (R100, D18) -/

theorem fetch_error_reason_ne_unsupported {s : State} {f : Fault} (e : fetch s = .error f) :
    f.reason ≠ .unsupportedOperation := by
  rcases fetch_error s f e with ⟨a, rfl, -⟩ | ⟨op, rfl, -⟩ <;> exact HaltReason.noConfusion

theorem effectOf_error_reason_ne_unsupported {i : Instr} {s : State} {f : Fault} (e : effectOf i s = .error f) :
    f.reason ≠ .unsupportedOperation := by
  obtain ⟨n, rfl, -⟩ := effectOf_error i s f e
  exact HaltReason.noConfusion

/-- Settles O43: neither a fetch nor an effect raises that fault, and an effect that raises none leaves HLT's reason or the one
before. -/
theorem unsupportedOperationIsUnreachable : Obligations.UnsupportedOperationIsUnreachable := by
  unfold Obligations.UnsupportedOperationIsUnreachable
  intro s t hs hstep
  rcases step_next s t hstep with
    ⟨-, rfl⟩ | ⟨-, f, hf, rfl⟩ | ⟨-, i, -, f, he, rfl⟩ | ⟨-, i, -, u, he, rfl⟩
  · exact hs
  · exact fetch_error_reason_ne_unsupported hf
  · exact effectOf_error_reason_ne_unsupported he
  · rw [State.committed_haltReason]
    rcases effectOf_ok i s u he with ⟨-, rfl⟩ | ⟨-, hhalt, -⟩
    · exact HaltReason.noConfusion
    · rwa [hhalt]

end Sys2Proof.Machine

/-! The statements about the stack (spec/43_stack.md). First PUSH and POP with their whole next state, then what PUSH, CALL, POP and
RET leave unchanged, then sequences of PUSHes and POPs. -/

namespace Sys2Proof.Machine

/-! ## PUSH and POP -/

/-- The state after PUSH of an existing register (R110). -/
def State.pushed (s : State) (p : RegIndex) : State :=
  (s.decSp.setMem (s.mem.write (s.sp - 1).toNat (s.decSp.reg p))).advance 2

/-- The state after POP into an existing register (R112). -/
def State.popped (s : State) (q : RegIndex) : State := (s.setReg q (s.mem.read s.sp.toNat)).incSp.advance 2

theorem exec_push_ok (a : Byte) (s : State) (h : a.toNat < Config.numRegs) :
    exec (.push a) s = .next (s.pushed ⟨a.toNat, h⟩) := exec_of_effect_ok (effectOf_push_ok a s h)

theorem exec_pop_ok (a : Byte) (s : State) (h : a.toNat < Config.numRegs) :
    exec (.pop a) s = .next (s.popped ⟨a.toNat, h⟩) := exec_of_effect_ok (effectOf_pop_ok a s h)

/-- Settles O18: PUSH's effect decrements SP, reads the register and stores it; the end of the step advances the PC by its size,
2. -/
theorem pushStoresBelowTheStack : Obligations.PushStoresBelowTheStack := by
  unfold Obligations.PushStoresBelowTheStack
  intro a s h
  rw [exec_push_ok a s h, State.pushed, State.decSp_reg_operand]
  rfl

theorem State.setReg_sp_incSp (s : State) (v : Byte) : (s.setReg spIndex v).incSp = s.setReg spIndex (v + 1) := by
  rw [State.incSp, State.setReg_sp, if_pos rfl]
  simp only [State.setReg, Vector.set_set]

theorem State.setReg_incSp_of_ne (s : State) (r : RegIndex) (v : Byte) (h : r ≠ spIndex) :
    (s.setReg r v).incSp = (s.setReg r v).setReg spIndex (s.sp + 1) := by
  rw [State.incSp, State.setReg_sp_ne s r v h]

/-- Settles O19: POP's effect sets the register and then increments SP, which that write may have set. -/
theorem popLoadsTheTopOfStack : Obligations.PopLoadsTheTopOfStack := by
  unfold Obligations.PopLoadsTheTopOfStack
  intro a s h
  rw [exec_pop_ok a s h, State.popped]
  by_cases h7 : a.toNat = 7
  · have hsp : (⟨a.toNat, h⟩ : RegIndex) = spIndex := Fin.ext h7
    rw [if_pos h7, hsp, State.setReg_sp_incSp]
    rfl
  · have hsp : (⟨a.toNat, h⟩ : RegIndex) ≠ spIndex := fun e => h7 (congrArg Fin.val e)
    rw [if_neg h7, State.setReg_incSp_of_ne s _ _ hsp]
    rfl

/-! ## What PUSH, CALL, POP and RET leave unchanged -/

/-- All PUSH and CALL do to the state, when they raise no fault: SP, the cell at the decremented SP, and CALL's PC (R110, R121). -/
theorem effectOf_ok_of_store {i : Instr} {a : Byte} {s u : State} (hi : i = .push a ∨ i = .call a)
    (he : effectOf i s = .ok u) : ∃ v pc, u = (s.decSp.setMem (s.mem.write (s.sp - 1).toNat v)).setPc pc := by
  rcases hi with rfl | rfl
  · rw [effectOf, pushEffect_eq] at he
    split at he <;> cases he
    exact ⟨_, s.pc, rfl⟩
  · rw [effectOf, callEffect_eq] at he
    split at he <;> cases he
    exact ⟨_, _, rfl⟩

theorem wellFormed_of_store {i : Instr} {a : Byte} (hi : i = .push a ∨ i = .call a) :
    i.wellFormed = true ↔ a.toNat < Config.numRegs := by
  rcases hi with rfl | rfl <;> exact decide_eq_true_iff

/-- Settles O31: the fault of a missing register is taken on the state before; otherwise only SP, the cell at the decremented SP
and the PC change. -/
theorem pushAndCallFrame : Obligations.PushAndCallFrame := by
  unfold Obligations.PushAndCallFrame
  intro i a s t hi h
  rcases exec_next i s t h with ⟨f, he, rfl⟩ | ⟨u, he, rfl⟩
  · have ha : ¬ a.toNat < Config.numRegs := by simp [← wellFormed_of_store hi, wellFormed_of_effectOf_error he]
    exact ⟨fun _ _ => rfl, rfl, fun _ _ => rfl, fun hexists => absurd hexists ha, fun _ => ⟨rfl, rfl, rfl⟩⟩
  · have ha : a.toNat < Config.numRegs := (wellFormed_of_store hi).mp (wellFormed_of_effectOf_ok he)
    obtain ⟨v, pc, rfl⟩ := effectOf_ok_of_store hi he
    refine ⟨fun r hr => ?register, by simp, fun addr haddr => ?cell, by simp, fun hmissing => absurd ha hmissing⟩
    case register =>
      rw [State.committed_regs]
      exact RegFile.getElem_set_ne s.regs spIndex r _ (fun e => hr (Fin.ext e))
    case cell =>
      rw [State.committed_mem]
      exact Memory.read_write_ne s.mem _ addr v haddr

/-- A register that is neither POP's own nor SP. -/
theorem State.popped_regs_ne (s : State) (q r : RegIndex) (hsp : r ≠ spIndex) (hq : r ≠ q) :
    (s.popped q).regs[r] = s.regs[r] := by
  calc (s.popped q).regs[r]
    _ = (s.setReg q (s.mem.read s.sp.toNat)).reg r := State.setReg_reg_ne _ spIndex r _ hsp
    _ = s.reg r := State.setReg_reg_ne s q r _ hq

/-- Settles O32: POP's fault of a missing register is taken on the state before; otherwise POP and RET change registers and the PC
only. -/
theorem popAndRetFrame : Obligations.PopAndRetFrame := by
  unfold Obligations.PopAndRetFrame
  refine ⟨fun a s t h => ?pop, fun s t h => ?ret⟩
  case pop =>
    by_cases ha : a.toNat < Config.numRegs
    · rw [exec_pop_ok a s ha] at h
      cases h
      exact ⟨fun r hsp hr => s.popped_regs_ne _ r hsp (fun e => hr (congrArg Fin.val e)), rfl, fun _ => rfl,
        fun _ => ⟨rfl, rfl, rfl, rfl, rfl⟩, fun hmissing => absurd ha hmissing⟩
    · rw [exec_of_effect_error (effectOf_pop_missing a s ha)] at h
      cases h
      exact ⟨fun _ _ _ => rfl, rfl, fun _ => rfl, fun hexists => absurd hexists ha, fun _ => ⟨rfl, rfl⟩⟩
  case ret =>
    rw [exec_of_effect_ok (i := .ret) (retEffect_eq s)] at h
    cases h
    exact ⟨fun r hr => RegFile.getElem_set_ne s.regs spIndex r _ (fun e => hr (Fin.ext e)), rfl, fun _ => rfl,
      rfl, rfl, rfl, rfl, rfl⟩

/-! ## Several instructions -/

theorem execAll_cons {i : Instr} {s u : State} (is : List Instr) (h : exec i s = .next u) :
    execAll (i :: is) s = execAll is u := by rw [execAll, h]

/-- Instructions that each answer a next state are executed by folding over those answers. -/
theorem execAll_map_append {α : Type} (instr : α → Instr) (next : State → α → State)
    (h : ∀ x s, exec (instr x) s = .next (next s x)) (xs : List α) (is : List Instr) (s : State) :
    execAll (xs.map instr ++ is) s = execAll is (xs.foldl next s) := by
  induction xs generalizing s with
  | nil => rfl
  | cons x xs ih => exact (execAll_cons _ (h x s)).trans (ih (next s x))

theorem operandOf_toNat (r : RegIndex) : (operandOf r).toNat = r.val :=
  Nat.mod_eq_of_lt (r.isLt.trans (by decide))

theorem exec_push_operandOf (p : RegIndex) (s : State) : exec (.push (operandOf p)) s = .next (s.pushed p) := by
  rw [exec_push_ok _ s (operandOf_toNat p ▸ p.isLt)]
  simp only [operandOf_toNat]

theorem exec_pop_operandOf (q : RegIndex) (s : State) : exec (.pop (operandOf q)) s = .next (s.popped q) := by
  rw [exec_pop_ok _ s (operandOf_toNat q ▸ q.isLt)]
  simp only [operandOf_toNat]

/-- The state after PUSHes of existing registers, one after another. -/
def State.pushAll (s : State) (ps : List RegIndex) : State := ps.foldl State.pushed s

/-- The state after POPs into existing registers, one after another. -/
def State.popAll (s : State) (qs : List RegIndex) : State := qs.foldl State.popped s

theorem execAll_pushes (ps : List RegIndex) (s : State) :
    execAll (ps.map (fun p => .push (operandOf p))) s = .next (s.pushAll ps) := by
  rw [← List.append_nil (ps.map _), execAll_map_append _ _ exec_push_operandOf]
  rfl

theorem execAll_pushes_pops (ps qs : List RegIndex) (s : State) :
    execAll (ps.map (fun p => .push (operandOf p)) ++ qs.map (fun q => .pop (operandOf q))) s =
      .next ((s.pushAll ps).popAll qs) := by
  rw [execAll_map_append _ _ exec_push_operandOf, ← List.append_nil (qs.map _), execAll_map_append _ _ exec_pop_operandOf]
  rfl

theorem State.pushAll_concat (s : State) (ps : List RegIndex) (p : RegIndex) :
    s.pushAll (ps ++ [p]) = (s.pushAll ps).pushed p := List.foldl_append ..

theorem State.popAll_concat (s : State) (qs : List RegIndex) (q : RegIndex) :
    s.popAll (qs ++ [q]) = (s.popAll qs).popped q := List.foldl_append ..

/-! ## The PUSHes: each stores one cell further down, so at most 256 of them never share a cell -/

theorem State.pushed_sp (s : State) (p : RegIndex) : (s.pushed p).sp = s.sp - 1 := s.decSp_sp

theorem State.pushed_mem (s : State) (p : RegIndex) :
    (s.pushed p).mem = s.mem.write (s.sp - 1).toNat (s.decSp.reg p) := rfl

theorem State.pushAll_sp (s : State) (ps : List RegIndex) : (s.pushAll ps).sp = s.sp - BitVec.ofNat 8 ps.length := by
  induction ps using List.reverseRecOn with
  | nil => exact (BitVec.sub_zero _).symm
  | append_singleton ps p ih =>
    rw [State.pushAll_concat, State.pushed_sp, ih, List.length_append, List.length_singleton]
    bv_omega

theorem State.pushAll_mem_wf (s : State) (ps : List RegIndex) (hm : s.mem.wf = true) : (s.pushAll ps).mem.wf = true := by
  induction ps using List.reverseRecOn with
  | nil => exact hm
  | append_singleton ps p ih =>
    rw [State.pushAll_concat, State.pushed_mem]
    exact Memory.write_wf _ _ _ ih (byte_lt_memSize _)

/-- After at most 256 PUSHes the cell of each still holds what it stored: the register as that PUSH read it (R110). -/
theorem State.read_pushAll (s : State) (ps : List RegIndex) (hm : s.mem.wf = true) (hlen : ps.length ≤ 256) (j : Nat)
    (hj : j < ps.length) :
    (s.pushAll ps).mem.read (s.sp - BitVec.ofNat 8 (j + 1)).toNat = (s.pushAll (ps.take j)).decSp.reg ps[j] := by
  induction ps using List.reverseRecOn with
  | nil => cases hj
  | append_singleton ps p ih =>
    rw [List.length_append, List.length_singleton] at hlen hj
    have hcell : (s.pushAll ps).sp - 1 = s.sp - BitVec.ofNat 8 (ps.length + 1) := by
      rw [State.pushAll_sp]
      bv_omega
    rw [State.pushAll_concat, State.pushed_mem, hcell]
    by_cases hlast : j = ps.length
    · subst hlast
      rw [Memory.read_write_self _ _ _ (s.pushAll_mem_wf ps hm), List.take_left, List.getElem_concat_length rfl]
    · have hj' : j < ps.length := by omega
      have hother : (s.sp - BitVec.ofNat 8 (j + 1)).toNat ≠ (s.sp - BitVec.ofNat 8 (ps.length + 1)).toNat := by bv_omega
      rw [Memory.read_write_ne _ _ _ _ hother, ih (by omega) hj', List.take_append_of_le_length hj'.le,
        List.getElem_append_left hj']

/-! ## The POPs: each reads one cell further up, and none stores -/

theorem State.popped_sp (s : State) (q : RegIndex) (hq : q ≠ spIndex) : (s.popped q).sp = s.sp + 1 := by
  calc (s.popped q).sp
    _ = (s.setReg q (s.mem.read s.sp.toNat)).sp + 1 := State.incSp_sp _
    _ = s.sp + 1 := by rw [State.setReg_sp_ne s q _ hq]

/-- POP leaves the cell at SP in its register (R112). -/
theorem State.popped_reg (s : State) (q : RegIndex) (hq : q ≠ spIndex) : (s.popped q).reg q = s.mem.read s.sp.toNat := by
  calc (s.popped q).reg q
    _ = (s.setReg q (s.mem.read s.sp.toNat)).reg q := State.setReg_reg_ne _ spIndex q _ hq
    _ = s.mem.read s.sp.toNat := State.setReg_reg_self ..

theorem State.popAll_sp (s : State) (qs : List RegIndex) (hqs : ∀ q ∈ qs, q ≠ spIndex) :
    (s.popAll qs).sp = s.sp + BitVec.ofNat 8 qs.length := by
  induction qs using List.reverseRecOn with
  | nil => exact (BitVec.add_zero _).symm
  | append_singleton qs q ih =>
    obtain ⟨hqs, hq⟩ := List.forall_mem_append.mp hqs
    rw [State.popAll_concat, State.popped_sp _ q (hq q (List.mem_singleton_self q)), ih hqs, List.length_append,
      List.length_singleton]
    bv_omega

theorem State.popAll_mem (s : State) (qs : List RegIndex) : (s.popAll qs).mem = s.mem := by
  induction qs generalizing s with
  | nil => rfl
  | cons q qs ih => exact ih (s.popped q)

/-! ## The stack is last in, first out -/

/-- The POP with `k` before it reads the cell of the PUSH with `k` after it (R113). -/
theorem State.popAll_pushAll_sp (s : State) (ps qs : List RegIndex) (hqs : ∀ q ∈ qs, q ≠ spIndex)
    (hlen : qs.length < ps.length) :
    ((s.pushAll ps).popAll qs).sp = s.sp - BitVec.ofNat 8 (ps.length - 1 - qs.length + 1) := by
  rw [State.popAll_sp _ qs hqs, State.pushAll_sp]
  bv_omega

/-- That POP leaves in its register what that PUSH stored. -/
theorem State.popAll_pushAll_reg (s : State) (ps qs : List RegIndex) (hm : s.mem.wf = true) (hps : ps.length ≤ 256)
    (hqs : ∀ q ∈ qs, q ≠ spIndex) (k : Nat) (hk : k < qs.length) (hlen : qs.length = ps.length)
    (hp : ps.length - 1 - k < ps.length) :
    ((s.pushAll ps).popAll (qs.take (k + 1))).reg qs[k] =
      (s.pushAll (ps.take (ps.length - 1 - k))).decSp.reg ps[ps.length - 1 - k] := by
  have hbefore : ∀ q ∈ qs.take k, q ≠ spIndex := fun q hq => hqs q (List.mem_of_mem_take hq)
  have htake : (qs.take k).length = k := List.length_take_of_le hk.le
  rw [← List.take_concat_get' qs k hk, State.popAll_concat, State.popped_reg _ _ (hqs _ (List.getElem_mem hk)),
    State.popAll_mem, State.popAll_pushAll_sp s ps _ hbefore (by omega), htake, State.read_pushAll s ps hm hps _ hp]

/-- Settles O52: as many POPs as PUSHes return SP, and the cells of the PUSHes, all different, are read in reverse order. -/
theorem stackIsLastInFirstOut : Obligations.StackIsLastInFirstOut := by
  unfold Obligations.StackIsLastInFirstOut
  intro ps qs s hm hps hlen hqs
  refine ⟨⟨_, execAll_pushes_pops ps qs s, ?sp⟩, fun k hq hp =>
    ⟨_, _, execAll_pushes _ s, execAll_pushes_pops ps _ s, ?value⟩⟩
  case sp =>
    calc ((s.pushAll ps).popAll qs).sp
      _ = s.sp - BitVec.ofNat 8 ps.length + BitVec.ofNat 8 ps.length := by
        rw [State.popAll_sp _ qs hqs, State.pushAll_sp, hlen]
      _ = s.sp := BitVec.sub_add_cancel ..
  case value =>
    exact (State.popAll_pushAll_reg s ps qs hm hps hqs k hq hlen hp).trans (State.decSp_reg _ _)

end Sys2Proof.Machine

/-! The statements about CALL and RET (spec/44_call_return.md). First CALL and RET with their whole next state, then that they are
symmetric. -/

namespace Sys2Proof.Machine

/-! ## CALL and RET -/

/-- The state after CALL of an existing register (R121). -/
def State.called (s : State) (p : RegIndex) : State :=
  (s.decSp.setMem (s.mem.write (s.sp - 1).toNat (trunc (s.pc + 2)))).setPc (s.decSp.reg p).toNat

/-- The state after RET (R123). -/
def State.returned (s : State) : State := s.incSp.setPc (s.mem.read s.sp.toNat).toNat

theorem exec_call_ok (a : Byte) (s : State) (h : a.toNat < Config.numRegs) :
    exec (.call a) s = .next (s.called ⟨a.toNat, h⟩) := exec_of_effect_ok (effectOf_call_ok a s h)

theorem exec_ret (s : State) : exec .ret s = .next s.returned := exec_of_effect_ok (i := .ret) (retEffect_eq s)

/-- Settles O20: CALL's effect decrements SP, stores the return address and sets the PC to the register, read after SP's update; the
end of the step leaves the PC there. -/
theorem callPushesTheReturnAddressAndJumps : Obligations.CallPushesTheReturnAddressAndJumps := by
  unfold Obligations.CallPushesTheReturnAddressAndJumps
  intro a s h
  rw [exec_call_ok a s h, State.called, State.decSp_reg_operand]
  rfl

/-- Settles O21: RET's effect increments SP and sets the PC to the cell at SP before the increment. -/
theorem retJumpsToTheTopOfStack : Obligations.RetJumpsToTheTopOfStack := by
  unfold Obligations.RetJumpsToTheTopOfStack
  exact exec_ret

/-! ## CALL and RET are symmetric -/

theorem State.called_sp (s : State) (p : RegIndex) : (s.called p).sp = s.sp - 1 := s.decSp_sp

theorem State.called_mem (s : State) (p : RegIndex) :
    (s.called p).mem = s.mem.write (s.sp - 1).toNat (trunc (s.pc + 2)) := rfl

/-- CALL leaves the return address in the cell at SP (R121). -/
theorem State.called_read_sp (s : State) (p : RegIndex) (hm : s.mem.wf = true) :
    (s.called p).mem.read (s.called p).sp.toNat = trunc (s.pc + 2) := by
  rw [State.called_sp, State.called_mem, Memory.read_write_self _ _ _ hm]

theorem State.returned_sp (s : State) : s.returned.sp = s.sp + 1 := s.incSp_sp

theorem State.returned_pc (s : State) : s.returned.pc = (s.mem.read s.sp.toNat).toNat := rfl

/-- A return address that fits a cell is stored whole. -/
theorem trunc_toNat_of_lt {n : Nat} (h : n < 256) : (trunc n).toNat = n := (trunc_toNat_eq n).trans (Nat.mod_eq_of_lt h)

/-- Settles O53: RET finds CALL's return address at SP, which up to PC 253 is not truncated, and undoes CALL's decrement. -/
theorem callAndReturnAreSymmetric : Obligations.CallAndReturnAreSymmetric := by
  unfold Obligations.CallAndReturnAreSymmetric
  intro a s t u hm hpc ha hcall hsp hcell
  rw [exec_call_ok a s ha] at hcall
  cases hcall
  refine ⟨u.returned, exec_ret u, ?pc, ?sp⟩
  case pc =>
    calc u.returned.pc
      _ = (u.mem.read u.sp.toNat).toNat := u.returned_pc
      _ = (trunc (s.pc + 2)).toNat := congrArg BitVec.toNat (hcell.trans (s.called_read_sp _ hm))
      _ = s.pc + 2 := trunc_toNat_of_lt (by omega)
  case sp =>
    calc u.returned.sp
      _ = u.sp + 1 := u.returned_sp
      _ = s.sp - 1 + 1 := congrArg (· + 1) (hsp.trans (s.called_sp _))
      _ = s.sp := BitVec.sub_add_cancel ..

end Sys2Proof.Machine

/-! The statements about faults and halting (spec/60_exceptions.md): every step answers a next state, faults are precise, Halted is
terminal, and what taking a fault records. -/

namespace Sys2Proof.Machine

/-! ## Every step answers a next state -/

/-- An instruction never stops the model: the fault its effect may raise has a next state too (R133). -/
theorem exec_answers_next (i : Instr) (s : State) : ∃ t, exec i s = .next t := by
  cases he : effectOf i s with
  | error f => exact ⟨_, exec_of_effect_error he⟩
  | ok u => exact ⟨_, exec_of_effect_ok he⟩

/-- Settles O34: a halted block keeps its state, a fetch's fault is taken, and an instruction fetched answers a next state. -/
theorem everyStepAnswersANextState : Obligations.EveryStepAnswersANextState := by
  unfold Obligations.EveryStepAnswersANextState
  intro s
  cases hr : s.run with
  | halted => exact ⟨s, step_halted s hr⟩
  | running =>
    cases hf : fetch s with
    | error f => exact ⟨_, step_running_error s f hr hf⟩
    | ok i => rw [step_running_ok s i hr hf]; exact exec_answers_next i s

/-! ## Faults are precise -/

/-- An effect that raises no fault leaves no fault's halt reason where there was none: HLT sets its own, the others keep it. -/
theorem effectOf_ok_isFault {i : Instr} {s u : State} (hs : s.haltReason.isFault = false) (he : effectOf i s = .ok u) :
    u.haltReason.isFault = false := by
  rcases effectOf_ok i s u he with ⟨-, rfl⟩ | ⟨-, hreason, -⟩
  · rfl
  · rwa [hreason]

/-- Settles O38: with no fault recorded before, only taking a fault leaves a fault's halt reason, and that is done on the state
before the step. -/
theorem faultsArePrecise : Obligations.FaultsArePrecise := by
  unfold Obligations.FaultsArePrecise
  intro s t hr hs hstep ht
  rcases step_next s t hstep with
    ⟨hh, -⟩ | ⟨-, f, -, rfl⟩ | ⟨-, i, -, f, -, rfl⟩ | ⟨-, i, -, u, he, rfl⟩
  · simp [hr] at hh
  · exact ⟨rfl, rfl, rfl, rfl, rfl, rfl⟩
  · exact ⟨rfl, rfl, rfl, rfl, rfl, rfl⟩
  · rw [State.committed_haltReason, effectOf_ok_isFault hs he] at ht
    cases ht

/-! ## Halted is terminal -/

/-- Settles O41: each step of a halted block answers the same state, so by induction any number of them does. -/
theorem haltedIsTerminal : Obligations.HaltedIsTerminal := by
  unfold Obligations.HaltedIsTerminal
  exact run_halted

/-! ## Taking a fault -/

/-- Everything taking a fault does: the block is halted, the fault record is written, nothing else changes (R133). -/
theorem takeFault_eq (f : Fault) (s : State) : takeFault f s =
    { s with run := .halted, haltReason := f.reason, faultPc := s.pc, faultSpace := f.spaceBit, faultValue := f.value } := rfl

/-- Settles O27: each fault with its halt reason, space and value (R130). -/
theorem takingAFaultRecordsIt : Obligations.TakingAFaultRecordsIt := by
  unfold Obligations.TakingAFaultRecordsIt
  intro s
  exact ⟨fun op => takeFault_eq (.invalidOpcode op) s, fun addr => takeFault_eq (.outOfBounds .mem addr) s,
    fun index => takeFault_eq (.outOfBounds .reg index) s, fun id => takeFault_eq (.unsupportedOperation id) s⟩

end Sys2Proof.Machine

/-! The statements about reset (spec/70_reset_and_hazards.md): the invariant holds after it, and the values it leaves. -/

namespace Sys2Proof.Machine

/-! ## The invariant after reset -/

/-- The reset state's memory is empty, which is canonical, so the state meets the invariant. -/
theorem State.resetWith_inv (draw : RegFile) : (State.resetWith draw).Inv := State.resetWith_setMem_inv draw [] State.reset_mem_wf

/-- Settles O36: the model's own reset is the reset state for one draw. -/
theorem resetMeetsTheInvariant : Obligations.ResetMeetsTheInvariant := by
  unfold Obligations.ResetMeetsTheInvariant
  exact ⟨State.resetWith_inv _, State.resetWith_inv⟩

/-! ## The values reset leaves -/

/-- Reset leaves the draw in the register file, with SP's reset value in SP's place. -/
theorem State.assertReset_regs (s : State) (draw : RegFile) : (s.assertReset draw).regs = draw.set spIndex spReset := rfl

/-- SP after reset (R25). -/
theorem State.assertReset_sp (s : State) (draw : RegFile) : (s.assertReset draw).regs[spIndex] = spReset := by
  rw [State.assertReset_regs]
  exact Vector.getElem_set_self ..

/-- A register other than SP holds what it drew (R25, D3). -/
theorem State.assertReset_reg_of_ne_sp (s : State) (draw : RegFile) (r : RegIndex) (h : r ≠ spIndex) :
    (s.assertReset draw).regs[r] = draw[r] := by
  rw [State.assertReset_regs]
  exact RegFile.getElem_set_ne draw spIndex r spReset (Fin.val_ne_of_ne h)

/-- Memory lies outside the block, so reset keeps it (R151, D20). -/
theorem State.assertReset_mem (s : State) (draw : RegFile) : (s.assertReset draw).mem = s.mem :=
  State.setMem_mem (State.resetWith draw) s.mem

/-- Settles O55: the register file is the draw with SP set in it; run state, halt reason, fault record and output are constants
of reset; memory is the one before. -/
theorem resetLeavesTheStatedValues : Obligations.ResetLeavesTheStatedValues := by
  unfold Obligations.ResetLeavesTheStatedValues
  intro s draw
  refine ⟨s.assertReset_sp draw, s.assertReset_reg_of_ne_sp draw, ?run, ?reason, ?pc, ?space, ?value, ?out,
    s.assertReset_mem draw, stepWithReset_some draw s, stepWithReset_none s⟩
  case run | reason | pc | space | value | out => rfl

end Sys2Proof.Machine
